-- ==== Sys2Proof/Word.lean ====
section
/-! DEFINITION. Word.lean: the widths the spec fixes (00_scope R6, R7). Every other quantity is a natural number
without wrap-around (R6, D21). -/

namespace Sys2Proof

/-- `u8`: a byte. -/
abbrev Byte := BitVec 8

/-- `u16`: a checksum state. -/
abbrev Half := BitVec 16

/-- `u24`: the checksum engine's working value. -/
abbrev Work := BitVec 24

end Sys2Proof
end

