-- ==== Sys2Proof/Config.lean ====
section
/-! DEFINITION. Config.lean: what an implementation fixes (00_scope R5) and the one free value (00_scope R12).
The constants of 00_scope R4, which nothing configures, stand in Machine/Ops.lean. -/

namespace Sys2Proof

/-- The three open parameters of 00_scope R5, `none` meaning unbounded (D5, D18). The model takes them as arguments: they
ride in `State.cfg`, no operation changes them, and a statement about every state is one about every choice of
them (DESIGN CHOICE, log 4). -/
structure Config where
  /-- `IDX_INT_MAX`: the largest integer the encoder's index parser accepts. -/
  idxIntMax : Option Nat
  /-- `OPND_MAX`: the largest length of the ENCODE operands. -/
  opndMax : Option Nat
  /-- `BUF_MAX`: the largest length of the DECODE and SCAN operands. -/
  bufMax : Option Nat
deriving DecidableEq, Repr

/-- Whether the natural number `n` is within a parameter, `none` being unbounded. -/
def Config.within (limit : Option Nat) (n : Nat) : Bool :=
  match limit with
  | none => true
  | some m => decide (n ≤ m)

/-- `CK_PAD` (00_scope R12, 40_checksum R94): the byte of the k-th draw, for the draw counter `k` of State.
A free value: it has no body, so nothing proved of the model can lean on which byte it is (DESIGN CHOICE, log 5). -/
opaque Config.ckPad : Nat → Byte

end Sys2Proof
end

