-- ==== Sys2Proof/Syntax.lean ====
section
/-! DEFINITION. Syntax.lean: the four operations with their operands (30_encoding R72, R73), and the form in which a
caller hands one over: the operation select `OP` and the operand ports and buffers. -/

namespace Sys2Proof

/-- The operations, one constructor per row of spec/opcode_table.json, with the operands of 30_encoding R73. -/
inductive Instr where
  /-- CRC_UPDATE(state, byteValue), 40_checksum R90. -/
  | crcUpdate (state : Half) (byteValue : Byte)
  /-- ENCODE(IDXS, CMD, DAT), 41_encoder R114. -/
  | encode (idxs cmd dat : List Byte)
  /-- DECODE(FRM), 42_decoder R131. -/
  | decode (frm : List Byte)
  /-- SCAN(BUF), 43_scanner R151. -/
  | scan (buf : List Byte)
deriving DecidableEq, Repr

/-- The operand ports and operand buffers of 20_memory R40 and 30_encoding R73. A buffer is a byte sequence with its
length (00_scope R8). An operation reads the ones of its own row and ignores the others. -/
structure Operands where
  /-- CRC_UPDATE's `state`. -/
  state : Half
  /-- CRC_UPDATE's `byteValue`. -/
  byteValue : Byte
  /-- `IDXS`, ENCODE's index string. -/
  idxs : List Byte
  /-- `CMD`, ENCODE's command. -/
  cmd : List Byte
  /-- `DAT`, ENCODE's data. -/
  dat : List Byte
  /-- `FRM`, DECODE's frame. -/
  frm : List Byte
  /-- `BUF`, SCAN's buffer. -/
  buf : List Byte
deriving DecidableEq, Repr

/-- Scalar operands zero, operand buffers empty. -/
def Operands.zero : Operands :=
  { state := 0, byteValue := 0, idxs := [], cmd := [], dat := [], frm := [], buf := [] }

/-- What the caller gives to start an operation: "The caller starts an operation by giving `OP` and the operands"
(30_encoding R72). -/
structure Request where
  /-- `OP`, 2 bits (10_state R26). -/
  op : BitVec 2
  operands : Operands
deriving DecidableEq, Repr

end Sys2Proof
end

