-- ==== Sys2Proof/WellFormed.lean ====
section
/-! DEFINITION. WellFormed.lean: the limits of 00_scope R5. A configuration is well formed when its index limit is at
least 256; an operation is well formed under a configuration when its operands are within the capacities
(93 U7). Every `OP` value is legal (30_encoding R74), so there is nothing else to check. -/

namespace Sys2Proof

/-- `IDX_INT_MAX` is "a natural number, at least 256" (00_scope R5), or unbounded (D5). -/
def Config.wf (c : Config) : Bool :=
  match c.idxIntMax with
  | none => true
  | some m => decide (256 ≤ m)

/-- Operand lengths within `OPND_MAX` and `BUF_MAX` (20_memory R40). -/
def Instr.wf (c : Config) : Instr → Bool
  | .crcUpdate _ _ => true
  | .encode idxs cmd dat =>
    Config.within c.opndMax idxs.length && Config.within c.opndMax cmd.length && Config.within c.opndMax dat.length
  | .decode frm => Config.within c.bufMax frm.length
  | .scan buf => Config.within c.bufMax buf.length

end Sys2Proof
end

