-- ==== Sys2Proof/Decode.lean ====
section
/-! DEFINITION. Decode.lean: from the operation select and the operand ports to an operation, and back
(30_encoding R72, R73; spec/opcode_table.json). "`OP` has four values and all four are operations" (R74): decoding
is total and refuses nothing. -/

namespace Sys2Proof

/-- `OP` codes, 30_encoding R72 (the spec's own choice, D2; log 15). -/
def opCrcUpdate : BitVec 2 := 0#2
def opEncode : BitVec 2 := 1#2
def opDecode : BitVec 2 := 2#2
def opScan : BitVec 2 := 3#2

/-- The operation a caller asks for: `OP` selects the row, the row's operands are read from their ports and the other
ports are ignored (30_encoding R72, R73). -/
def decode (op : BitVec 2) (p : Operands) : Instr :=
  if op = opCrcUpdate then .crcUpdate p.state p.byteValue
  else if op = opEncode then .encode p.idxs p.cmd p.dat
  else if op = opDecode then .decode p.frm
  else .scan p.buf

/-- The call for an operation: its `OP` code, its operands in their ports, every other port zero or empty. -/
def encode : Instr → Request
  | .crcUpdate st b => { op := opCrcUpdate, operands := { Operands.zero with state := st, byteValue := b } }
  | .encode idxs cmd dat => { op := opEncode, operands := { Operands.zero with idxs := idxs, cmd := cmd, dat := dat } }
  | .decode frm => { op := opDecode, operands := { Operands.zero with frm := frm } }
  | .scan buf => { op := opScan, operands := { Operands.zero with buf := buf } }

/-- The call a table word stands for: `OP` is its low two bits (a table row's whole mask) of those the word has, and the
operands, to which the table gives no bits, are zero and empty. Bits above `OP` have no place in the interface and are
dropped (DESIGN CHOICE, log 15). -/
def requestOfWord (nbits w : Nat) : Request :=
  { op := BitVec.ofNat 2 (w % 2 ^ nbits), operands := Operands.zero }

/-- The operation the decoder reads from a table word. -/
def decodeTableWord (nbits w : Nat) : Option Instr :=
  some (decode (requestOfWord nbits w).op (requestOfWord nbits w).operands)

end Sys2Proof
end

