-- ==== Sys2Proof/Machine/State.lean ====
section
/-! DEFINITION. Machine/State.lean: the state of the block as plain data (10_state R20-R30, 20_memory R40), the ways a
step can stop, and the state after reset. INVENTORY.md lists every field with its rule. -/

namespace Sys2Proof.Machine

/-- `TAG` (10_state R25): how the checksum text met the 4-byte field. Its code 3 is never produced. -/
inductive Tag where
  /-- Code 0: the text has 3 characters. -/
  | short
  /-- Code 1: the text has 4 characters. -/
  | fits
  /-- Code 2: the text has 5 characters and its space is cut off. -/
  | truncated
deriving DecidableEq, Repr

/-- The four typed errors (60_exceptions R170). -/
inductive CodecError where
  /-- ENCODE: the index string is certainly non-numeric (R171). -/
  | formatError
  /-- ENCODE: 1 + len(command) + len(data) exceeds 999 (R172). -/
  | lengthOverflow
  /-- DECODE, SCAN: the length-field bytes are not all digits (R173). -/
  | malformedLength
  /-- DECODE, SCAN: a read or the scanner's slice reaches past the end (R174). -/
  | truncatedFrame
deriving DecidableEq, Repr

/-- `STATUS` (10_state R26): OK, or the error an operation ended with. Codes 5 to 7 are never produced. -/
inductive Status where
  | ok
  | error (e : CodecError)
deriving DecidableEq, Repr

/-- A decoded record (30_encoding R73, 42_decoder R130). -/
structure Record where
  length : Nat
  command : List Byte
  data : List Byte
  checksum : List Byte
  incoming : List Byte
deriving DecidableEq, Repr

/-- The result fields an operation delivers beside `STATUS` (30_encoding R73). -/
inductive Result where
  /-- CRC_UPDATE's `new_state`. -/
  | newState (c : Half)
  /-- ENCODE's `OUT` and `TAG`. -/
  | frame (out : List Byte) (tag : Tag)
  /-- DECODE's `RES`, one record. -/
  | record (r : Record)
  /-- SCAN's `RES`, the records in buffer order. -/
  | records (rs : List Record)
deriving DecidableEq, Repr

/-- The output buffer `OUT` as memory (10_state R27, 41_encoder R116): it has `size` offsets from 0, and `cells` lists the
written ones. An unlisted offset has not been written and holds no byte (93 U9; log 10). -/
structure Memory where
  size : Nat
  cells : List Host.Cell
deriving DecidableEq, Repr

/-- The canonical form: offsets strictly rising, each inside the buffer. -/
abbrev Memory.wf (m : Memory) : Prop :=
  m.cells.Pairwise (fun c d => c.1 < d.1) ∧ ∀ c ∈ m.cells, c.1 < m.size

/-- A buffer of `size` offsets, none written. -/
def Memory.fresh (size : Nat) : Memory := { size := size, cells := [] }

/-- The operation-local registers of 10_state R21. -/
structure Regs where
  /-- `W`, the 24-bit working value. -/
  w : Work
  /-- `CRC`, the running checksum state. -/
  crc : Half
  /-- `LEN`, the length-field value. -/
  len : Nat
  /-- `IDXV`, the parsed index before truncation. -/
  idxv : Nat
  /-- `IDX`, the raw message-index byte. -/
  idx : Byte
  /-- `TOT`, the total frame size. -/
  tot : Nat
  /-- `CUR`, the scanner's cursor. -/
  cur : Nat
  /-- `N`, the length of the operand buffer. -/
  n : Nat
  /-- `TAG`. -/
  tag : Tag
deriving DecidableEq, Repr

/-- The registers after reset. The spec gives no value (70 R191); every one is the model's (DESIGN CHOICE, log 6). -/
def Regs.reset : Regs :=
  { w := 0, crc := 0, len := 0, idxv := 0, idx := 0, tot := 0, cur := 0, n := 0, tag := .short }

/-- What the outside does to the block next (00_scope R14, 70 R190-R192; log 2, log 16). -/
inductive Input where
  /-- The caller starts an operation. -/
  | call (r : Request)
  /-- Reset arrives, between operations (`none`) or during the named one. -/
  | reset (inFlight : Option Request)
deriving DecidableEq, Repr

structure State where
  /-- `IDX_INT_MAX`, `OPND_MAX`, `BUF_MAX`, fixed for the block (00_scope R5). -/
  cfg : Config
  /-- What the caller does from here on, next one first. -/
  inputs : List Input
  /-- `OP`, written by the caller (10_state R26). -/
  op : BitVec 2
  /-- The operand ports and buffers, written by the caller (20_memory R40). -/
  ports : Operands
  /-- The operation-local registers (10_state R21). -/
  regs : Regs
  /-- The output buffer `OUT` (10_state R27). -/
  out : Memory
  /-- `STATUS` (10_state R26). -/
  status : Status
  /-- The result fields the last operation delivered, if it delivered any (10_state R30). -/
  result : Option Result
  /-- The model's own: how many bytes `CK_PAD` have been drawn (log 5). -/
  draws : Nat
deriving DecidableEq, Repr

/-- The reasons to stop with a fault: none. The four errors of the spec are results of an operation that leave the block
ready for the next one (60_exceptions R175, R178), and nothing else in the spec stops it (log 11). -/
inductive Fault where
deriving DecidableEq, Repr

/-- The reasons to give an operation no result at all. -/
inductive Refusal where
  /-- Raised by exec for an operation that has no meaning yet. Safe. -/
  | notModelled (mnemonic : String)
  /-- Raised by ENCODE when it parses an index string that mixes digits with other bytes: class C of 41_encoder R112,
  93 U1, refused by 60 R184. Safe: nothing can be proved of such a run. -/
  | indexMixed
  /-- Raised by ENCODE when it parses an index string of digits above `IDX_INT_MAX`: class C of 41_encoder R112, 93 U2,
  refused by 60 R184. Safe. -/
  | indexTooLarge
  /-- Raised by ENCODE, DECODE and SCAN for an operand longer than `OPND_MAX` or `BUF_MAX`: 93 U7, refused by 60 R184.
  Safe. -/
  | operandTooLong
deriving DecidableEq, Repr

/-- The configuration the machine starts with: the natural instantiation of `IDX_INT_MAX` that D5 names, and unbounded
buffers (DESIGN CHOICE, log 4). No statement rests on it. -/
def resetConfig : Config := { idxIntMax := some 2147483647, opndMax := none, bufMax := none }

/-- After reset the block is idle: no operation in flight, none asked for, nothing delivered (70 R190, R191). Registers,
`OP`, `STATUS` and the operand ports hold the values of log 6 and log 7. -/
def State.reset : State :=
  { cfg := resetConfig, inputs := [], op := 0, ports := Operands.zero, regs := Regs.reset, out := Memory.fresh 0,
    status := .ok, result := none, draws := 0 }

end Sys2Proof.Machine
end

