-- ==== Sys2Proof/Machine/Ops.lean ====
section
/-! DEFINITION. Machine/Ops.lean: the constants of the format (00_scope R4), reading an operand buffer and writing the
output buffer (00_scope R10), how an operation starts and ends (60_exceptions R175), and the reset event. -/

namespace Sys2Proof.Machine

/-- Start marker, 00_scope R4. -/
def stx : Byte := 0x02#8
/-- End marker. -/
def etx : Byte := 0x03#8
/-- 1 start + 3 length + 1 end + 4 checksum. -/
def overhead : Nat := 9
/-- The largest value 3 decimal digits hold. -/
def lenMax : Nat := 999
/-- Width of the checksum field. -/
def ckBytes : Nat := 4
/-- The length of a command as the decoder reads it. -/
def decCmdLen : Nat := 3
/-- The checksum polynomial, at the width of the working value. -/
def poly : Work := 0x008408#24
/-- The state a fold starts from. -/
def crcInit : Half := 0x0000#16

/-- `B[off .. off+n-1]`, cut at the end of `B`. -/
def slice (B : List Byte) (off n : Nat) : List Byte := (B.drop off).take n

/-- `MemRead(B, off, n)`, 00_scope R10: `none` is the TruncatedFrameError of a read past the end (20_memory R42). -/
def memRead (B : List Byte) (off n : Nat) : Option (List Byte) :=
  if off + n ≤ B.length then some (slice B off n) else none

/-- `MemRead(B, off, 1)` as the single byte it returns. -/
def memReadByte (B : List Byte) (off : Nat) : Option Byte := B[off]?

/-- The cells of the bytes `vs` at offsets `off`, `off + 1`, ... -/
def cellsFrom : Nat → List Byte → List Host.Cell
  | _, [] => []
  | off, v :: vs => (off, v) :: cellsFrom (off + 1) vs

/-- `MemWrite(OUT, off, n, v)`, 00_scope R10, where `n` is the length of `v`: the cells of the run are replaced, the
others stay. A write that would leave the buffer changes nothing; the encoder makes none (41_encoder R116; log 10). -/
def Memory.write (m : Memory) (off : Nat) (v : List Byte) : Memory :=
  if off + v.length ≤ m.size then
    { m with
      cells := m.cells.filter (fun c => decide (c.1 < off)) ++ cellsFrom off v
        ++ m.cells.filter (fun c => decide (off + v.length ≤ c.1)) }
  else m

/-- The byte at one offset of the buffer, if it has been written. -/
def Memory.read (m : Memory) (off : Nat) : Option Byte := m.cells.lookup off

/-- The bytes written at the offsets `off` to `off + n - 1`, in ascending order. -/
def Memory.slice (m : Memory) (off n : Nat) : List Byte :=
  (m.cells.filter (fun c => decide (off ≤ c.1) && decide (c.1 < off + n))).map (·.2)

/-- The whole buffer as the byte sequence handed to the caller. -/
def Memory.bytes (m : Memory) : List Byte := m.slice 0 m.size

/-- The caller's part at the start of an operation: `OP` and the operand ports take what the call gives (30_encoding
R72). -/
def State.load (s : State) (r : Request) : State := { s with op := r.op, ports := r.operands }

/-- `return v`: the operation ends with STATUS OK and its result (00_scope R11). -/
def State.finish (s : State) (r : Result) : State := { s with status := .ok, result := some r }

/-- `raise E`, the entry sequence of 60_exceptions R175, shared by every operation: the operation ends, STATUS takes the
error's code, and nothing is delivered but what the operation keeps (`none` for ENCODE and DECODE, the records so far
for SCAN). Nothing is saved and no mode changes. There is no return from it: the next operation starts like any
other (R178). -/
def State.raise (s : State) (e : CodecError) (kept : Option Result) : State :=
  { s with status := .error e, result := kept }

/-- The reset event (70 R190-R192): the block is idle, nothing is delivered, registers and outputs are as after reset.
What is the caller's (operand ports, `OP`, what it does next) and what is fixed (parameters, draws made) stays
(DESIGN CHOICE, log 16). -/
def State.resetEvent (s : State) : State :=
  { s with
    regs := Regs.reset, out := State.reset.out, status := State.reset.status, result := State.reset.result }

/-- The operation a reset falls into has been started by the caller; it gets no further (70 R192). -/
def State.abandon (s : State) (inFlight : Option Request) : State :=
  match inFlight with
  | none => s.resetEvent
  | some r => (s.load r).resetEvent

end Sys2Proof.Machine
end

