-- ==== Sys2Proof/Machine/Operands.lean ====
section
/-! DEFINITION. Machine/Operands.lean: the assembly rules of 30_encoding R76: digits (00_scope R9), the length field
(30_encoding R63, R64), the index string (41_encoder R112, R113), the checksum text and field (40_checksum R92, R94). -/

namespace Sys2Proof.Machine

/-- `is_digit(b)`, 00_scope R9. -/
def isDigit (b : Byte) : Bool := decide (0x30 ≤ b.toNat) && decide (b.toNat ≤ 0x39)

/-- `digit_val(b)`, for a digit `b`. -/
def digitVal (b : Byte) : Nat := b.toNat - 0x30

/-- `dec_char(d)`, for `d <= 9`. -/
def decChar (d : Nat) : Byte := BitVec.ofNat 8 (0x30 + d)

/-- `hex_char(h)`. -/
def hexChar (h : BitVec 4) : Byte :=
  if h.toNat ≤ 9 then BitVec.ofNat 8 (0x30 + h.toNat) else BitVec.ofNat 8 (0x61 + (h.toNat - 10))

/-- The space character, 00_scope R9. -/
def space : Byte := 0x20#8

/-- `LEN_TEXT(L)`, for `L <= 999`, 30_encoding R63. -/
def lenText (L : Nat) : List Byte := [decChar (L / 100), decChar (L / 10 % 10), decChar (L % 10)]

/-- `LEN_PARSE(d)`, for a 3-byte sequence, 30_encoding R64: `none` is its MalformedLengthError. -/
def lenParse (d : List Byte) : Option Nat :=
  match d with
  | [a, b, c] =>
    if isDigit a && isDigit b && isDigit c then some (100 * digitVal a + 10 * digitVal b + digitVal c) else none
  | _ => none

/-- The classes of 41_encoder R112. -/
inductive IdxParse where
  /-- Class A: an integer within `IDX_INT_MAX`. -/
  | value (v : Nat)
  /-- Class B: no digit byte at all. -/
  | nonNumeric
  /-- Class C: digits and other bytes (93 U1). -/
  | mixed
  /-- Class C: digits only, above `IDX_INT_MAX` (93 U2). -/
  | tooLarge
deriving DecidableEq, Repr

/-- `value(S)` of a digit string, 41_encoder R112, most significant digit first. -/
def decValue (S : List Byte) : Nat := S.foldl (fun v b => 10 * v + digitVal b) 0

/-- `IDX_PARSE(S)`, 41_encoder R112, under the limit `IDX_INT_MAX`. -/
def idxParse (idxIntMax : Option Nat) (S : List Byte) : IdxParse :=
  if S.any isDigit then
    if S.all isDigit then
      if Config.within idxIntMax (decValue S) then .value (decValue S) else .tooLarge
    else .mixed
  else .nonNumeric

/-- The index byte, `IDXV mod 256`, 41_encoder R113. -/
def idxByte (v : Nat) : Byte := BitVec.ofNat 8 (v % 256)

/-- `CK_TEXT(c)`, 40_checksum R92. -/
def ckText (c : Half) : List Byte :=
  let h3 := c.extractLsb' 12 4
  let h2 := c.extractLsb' 8 4
  let h1 := c.extractLsb' 4 4
  let h0 := c.extractLsb' 0 4
  if 0x1000 ≤ c.toNat then [hexChar h3, hexChar h2, hexChar h1, hexChar h0, space]
  else if 0x0100 ≤ c.toNat then [hexChar h2, hexChar h1, hexChar h0, space]
  else [hexChar h1, hexChar h0, space]

/-- `CK_FIELD(c)`, 40_checksum R94, with the byte `CK_PAD` that a 3-character text draws. -/
def ckField (c : Half) (ckPad : Byte) : List Byte :=
  let t := ckText c
  if ckBytes ≤ t.length then t.take ckBytes else t ++ [ckPad]

end Sys2Proof.Machine
end

