-- ==== Sys2Proof/Machine/Flags.lean ====
section
/-! DEFINITION. Machine/Flags.lean: the one flag-like result `TAG` (10_state R25, 40_checksum R93) and the codes of `TAG`
and `STATUS` (10_state R25, R26; 60_exceptions R170). The block has no condition codes. -/

namespace Sys2Proof.Machine

/-- `CK_TAG(c)`, 40_checksum R93. -/
def ckTag (c : Half) : Tag :=
  if 0x1000 ≤ c.toNat then .truncated
  else if 0x0100 ≤ c.toNat then .fits
  else .short

/-- The code of `TAG`, 10_state R25. -/
def Tag.code : Tag → BitVec 2
  | .short => 0#2
  | .fits => 1#2
  | .truncated => 2#2

/-- The code of `STATUS`, 60_exceptions R170 (the spec's own choice, D3; log 15). -/
def Status.code : Status → BitVec 3
  | .ok => 0#3
  | .error .formatError => 1#3
  | .error .lengthOverflow => 2#3
  | .error .malformedLength => 3#3
  | .error .truncatedFrame => 4#3

/-- The draws made after a checksum field was built with this tag: `CK_PAD` is drawn afresh exactly for SHORT
(40_checksum R94; log 5). -/
def drawsAfter (t : Tag) (draws : Nat) : Nat :=
  match t with
  | .short => draws + 1
  | .fits => draws
  | .truncated => draws

end Sys2Proof.Machine
end

