-- ==== Sys2Proof/Machine/Checksum.lean ====
section
/-! DEFINITION. Machine/Checksum.lean: the Checksum Engine: CRC_UPDATE (40_checksum R90) and CRC_FOLD (R91). -/

namespace Sys2Proof.Machine

/-- One of the eight steps: the low bit before the shift decides, the exclusive-or comes after it. -/
def crcShift (w : Work) : Work := if w.getLsbD 0 then (w >>> 1) ^^^ poly else w >>> 1

/-- `k` steps. -/
def crcShifts : Nat → Work → Work
  | 0, w => w
  | k + 1, w => crcShifts k (crcShift w)

/-- The working value at the start: bits 23:16 the byte, bits 15:0 the state. -/
def crcLoad (state : Half) (byteValue : Byte) : Work := (byteValue.setWidth 24 <<< 16) + state.setWidth 24

/-- The working value after the eighth step. -/
def crcWork (state : Half) (byteValue : Byte) : Work := crcShifts 8 (crcLoad state byteValue)

/-- The new state, `W[15:0]`. -/
def crcUpdate (state : Half) (byteValue : Byte) : Half := (crcWork state byteValue).extractLsb' 0 16

/-- `CRC_FOLD(S)`, 40_checksum R91. -/
def crcFold (S : List Byte) : Half := S.foldl crcUpdate crcInit

/-- The loop of CRC_FOLD on the registers `CRC` and `W`. -/
def foldLoop (r : Regs) (S : List Byte) : Regs :=
  S.foldl (fun r b => { r with w := crcWork r.crc b, crc := crcUpdate r.crc b }) r

/-- CRC_FOLD as ENCODE and DECODE run it: `CRC` starts at 0x0000 and takes the new state after each byte. -/
def foldRegs (r : Regs) (S : List Byte) : Regs := foldLoop { r with crc := crcInit } S

/-- CRC_UPDATE, 40_checksum R90. "No error conditions; pure arithmetic." -/
def execCrcUpdate (state : Half) (byteValue : Byte) (s : State) : Host.Outcome State Fault Refusal :=
  .next (({ s with regs := { s.regs with w := crcWork state byteValue } }).finish
    (.newState (crcUpdate state byteValue)))

end Sys2Proof.Machine
end

