-- ==== Sys2Proof/Machine/Encoder.lean ====
section
/-! DEFINITION. Machine/Encoder.lean: the Frame Encoder, ENCODE (41_encoder R110-R118). The step numbers in the comments
are those of R114. -/

namespace Sys2Proof.Machine

/-- Steps 2 to 4: the new buffer, its start marker and its length field. -/
def encodeHead (len : Nat) : Memory :=
  ((Memory.fresh (len + overhead)).write 0 [stx]).write 1 (lenText len)

/-- Steps 5 (the emission) to 7: index byte, command, data and end marker. -/
def encodeBody (len : Nat) (idx : Byte) (cmd dat : List Byte) : Memory :=
  ((((encodeHead len).write 4 [idx]).write 5 cmd).write (5 + cmd.length) dat).write (len + 4) [etx]

/-- Steps 5 to 9 for a parsed index `v`: the registers `IDXV`, `IDX`, `CRC` (with `W`) and `TAG`, the whole buffer, and
the result. `CK_PAD` is drawn when the text is short (40_checksum R94). -/
def encodeRest (v : Nat) (cmd dat : List Byte) (s : State) : State :=
  let r := { s.regs with idxv := v, idx := idxByte v }
  let body := encodeBody r.len r.idx cmd dat
  let r := foldRegs r (body.slice 1 (r.len + 4))
  let r := { r with tag := ckTag r.crc }
  let out := body.write (r.len + 5) (ckField r.crc (Config.ckPad s.draws))
  ({ s with regs := r, out := out, draws := drawsAfter r.tag s.draws }).finish (.frame out.bytes r.tag)

/-- ENCODE, 41_encoder R114, after the capacity check: step 1 with its LengthOverflowError, steps 2 to 4, the parse of
step 5 with its FormatError or its refusal of class C (60 R184), and the rest. -/
def encodeRun (idxs cmd dat : List Byte) (s : State) : Host.Outcome State Fault Refusal :=
  let len := 1 + cmd.length + dat.length
  let s := { s with regs := { s.regs with len := len } }
  if lenMax < len then .next (s.raise .lengthOverflow none)
  else
    let s := { s with regs := { s.regs with tot := len + overhead }, out := encodeHead len }
    match idxParse s.cfg.idxIntMax idxs with
    | .nonNumeric => .next (s.raise .formatError none)
    | .mixed => .refused .indexMixed
    | .tooLarge => .refused .indexTooLarge
    | .value v => .next (encodeRest v cmd dat s)

/-- ENCODE. Operands longer than `OPND_MAX` are refused (93 U7). -/
def execEncode (idxs cmd dat : List Byte) (s : State) : Host.Outcome State Fault Refusal :=
  if (Instr.encode idxs cmd dat).wf s.cfg then encodeRun idxs cmd dat s else .refused .operandTooLong

end Sys2Proof.Machine
end

