-- ==== Sys2Proof/Machine/Decoder.lean ====
section
/-! DEFINITION. Machine/Decoder.lean: the Frame Decoder, DECODE (42_decoder R130-R138). The step numbers in the comments
are those of R131. -/

namespace Sys2Proof.Machine

/-- Step 4: `MemRead(F, 8, LEN - 4)` when `LEN > 4`, else no data and no read. -/
def readData (F : List Byte) (len : Nat) : Option (List Byte) :=
  if 4 < len then memRead F 8 (len - 4) else some []

/-- The record of steps 5 and 6, from the checksum the fold left in `CRC`. -/
def recordOf (F : List Byte) (r : Regs) (command data : List Byte) : Record :=
  { length := r.len, command := command, data := data, checksum := ckText r.crc,
    incoming := slice F (F.length - ckBytes) ckBytes }

/-- DECODE on the frame operand `F`, 42_decoder R131: the registers it leaves and its record or error. Every read is
checked when it is made, in step order (R132). The byte at offset 0 is never read and the index byte is read and
not returned. -/
def decodeRun (r : Regs) (F : List Byte) : Regs × Except CodecError Record :=
  let r := { r with n := F.length }
  match memRead F 1 3 with
  | none => (r, .error .truncatedFrame)
  | some d =>
    match lenParse d with
    | none => (r, .error .malformedLength)
    | some len =>
      let r := { r with len := len }
      match memReadByte F 4 with
      | none => (r, .error .truncatedFrame)
      | some idx =>
        let r := { r with idx := idx }
        match memRead F 5 decCmdLen with
        | none => (r, .error .truncatedFrame)
        | some command =>
          match readData F len with
          | none => (r, .error .truncatedFrame)
          | some data =>
            let r := foldRegs r (slice F 1 (F.length - 5))
            (r, .ok (recordOf F r command data))

/-- How DECODE ends: its record with STATUS OK, or the error with nothing else (10_state R30). -/
def decodeEnd (s : State) (x : Regs × Except CodecError Record) : State :=
  match x with
  | (r, .ok rec) => ({ s with regs := r }).finish (.record rec)
  | (r, .error e) => ({ s with regs := r }).raise e none

/-- DECODE. An operand longer than `BUF_MAX` is refused (93 U7). -/
def execDecode (frm : List Byte) (s : State) : Host.Outcome State Fault Refusal :=
  if (Instr.decode frm).wf s.cfg then .next (decodeEnd s (decodeRun s.regs frm)) else .refused .operandTooLong

end Sys2Proof.Machine
end

