-- ==== Sys2Proof/Machine/Scanner.lean ====
section
/-! DEFINITION. Machine/Scanner.lean: the Frame Scanner, SCAN (43_scanner R150-R159). -/

namespace Sys2Proof.Machine

/-- The registers when the scanner goes on after its inner DECODE: `IDX`, `CRC` and `W` as that left them, `N` and `LEN`
the scanner's own, the cursor moved by `LEN` and by the per-iteration 1 (43_scanner R152; log 9). -/
def scanAdvance (r inner : Regs) : Regs := { inner with n := r.n, len := r.len, cur := r.cur + r.len + 1 }

/-- One pass of the loop of 43_scanner R151 at the cursor: an error, or the registers for the next pass and the record
this one made, if any. -/
def scanPass (B : List Byte) (r : Regs) : Regs × Except CodecError (Option Record) :=
  match memReadByte B r.cur with
  | none => (r, .error .truncatedFrame)
  | some b =>
    if b ≠ stx then ({ r with cur := r.cur + 1 }, .ok none)
    else
      match memRead B (r.cur + 1) 3 with
      | none => (r, .error .truncatedFrame)
      | some d =>
        match lenParse d with
        | none => (r, .error .malformedLength)
        | some len =>
          let r := { r with len := len, tot := len + overhead }
          if B.length < r.cur + r.tot then (r, .error .truncatedFrame)
          else
            match decodeRun r (slice B r.cur r.tot) with
            | (inner, .ok rec) => (scanAdvance r inner, .ok (some rec))
            | (inner, .error e) => (inner, .error e)

/-- The loop, with at most as many passes as the first argument says; `len(B)` passes are enough, since each one ends the
scan or moves the cursor on (43_scanner R155). `res` is `RES` so far. -/
def scanLoop : Nat → List Byte → Regs → List Record → Regs × List Record × Status
  | 0, _, r, res => (r, res, .ok)
  | k + 1, B, r, res =>
    if r.cur < r.n then
      match scanPass B r with
      | (r, .error e) => (r, res, .error e)
      | (r, .ok none) => scanLoop k B r res
      | (r, .ok (some rec)) => scanLoop k B r (res ++ [rec])
    else (r, res, .ok)

/-- SCAN on the buffer operand `B`: `N <- len(B)`, `CUR <- 0`, `RES <- []`, and the loop. -/
def scanRun (r : Regs) (B : List Byte) : Regs × List Record × Status :=
  scanLoop B.length B { r with n := B.length, cur := 0 } []

/-- How SCAN ends: the records made are delivered with either status (43_scanner R153 (d)). -/
def scanEnd (s : State) (x : Regs × List Record × Status) : State :=
  match x with
  | (r, res, .ok) => ({ s with regs := r }).finish (.records res)
  | (r, res, .error e) => ({ s with regs := r }).raise e (some (.records res))

/-- SCAN. An operand longer than `BUF_MAX` is refused (93 U7). -/
def execScan (buf : List Byte) (s : State) : Host.Outcome State Fault Refusal :=
  if (Instr.scan buf).wf s.cfg then .next (scanEnd s (scanRun s.regs buf)) else .refused .operandTooLong

end Sys2Proof.Machine
end

