-- ==== Sys2Proof/Machine/Dispatch.lean ====
section
/-! DEFINITION. Machine/Dispatch.lean: one arm per operation. -/

namespace Sys2Proof.Machine

def exec (i : Instr) (s : State) : Host.Outcome State Fault Refusal :=
  match i with
  | .crcUpdate st b => Sys2Proof.Machine.execCrcUpdate st b s
  | .encode idxs cmd dat => Sys2Proof.Machine.execEncode idxs cmd dat s
  | .decode frm => Sys2Proof.Machine.execDecode frm s
  | .scan buf => Sys2Proof.Machine.execScan buf s

end Sys2Proof.Machine
end

