-- ==== Sys2Proof/Machine/Step.lean ====
section
/-! DEFINITION. Machine/Step.lean: one step of the block: the next thing the outside does to it, done whole (D1; log 1,
log 2). -/

namespace Sys2Proof.Machine

/-- With no input the block stays idle (10_state R26, 70 R190). A call loads `OP` and the operand ports and runs the
operation they select (30_encoding R72); a reset ends whatever was in flight (70 R192). -/
def step (s : State) : Host.Outcome State Fault Refusal :=
  match s.inputs with
  | [] => .next s
  | .call r :: rest =>
    let t := ({ s with inputs := rest }).load r
    exec (decode t.op t.ports) t
  | .reset inFlight :: rest => .next (({ s with inputs := rest }).abandon inFlight)

/-- The state whose next step runs the operation of a table word, its operands zero and empty: the caller's next input is
that call (log 3). -/
def State.withFetchWord (s : State) (nbits w : Nat) : State :=
  { s with inputs := .call (requestOfWord nbits w) :: s.inputs }

end Sys2Proof.Machine
end

