-- ==== Sys2Proof/Safety.lean ====
section
/-! DEFINITION. Safety.lean: the terms the statements use. Digits, frames and records as the tables of 30_encoding give
them; a declarative account of the scanner's walk; what every state keeps. Nothing here is part of the machine. -/

namespace Sys2Proof.Machine

/-- The operation ends with this status and these result fields. -/
def Delivers (o : Host.Outcome State Fault Refusal) (st : Status) (r : Option Result) : Prop :=
  ∃ t, o = .next t ∧ t.status = st ∧ t.result = r

/-- `0x30 <= b and b <= 0x39`, 00_scope R9. -/
abbrev IsDigit (b : Byte) : Prop := 0x30 ≤ b.toNat ∧ b.toNat ≤ 0x39

/-- `value(S)` as 41_encoder R112 writes it: the sum over `j` of `digit_val(S[j]) * 10^(len(S)-1-j)`. -/
def decimalValue : List Byte → Nat
  | [] => 0
  | b :: bs => (b.toNat - 0x30) * 10 ^ bs.length + decimalValue bs

/-- Class A of 41_encoder R112 under the limit `IDX_INT_MAX`, with its value. -/
def ClassA (idxIntMax : Option Nat) (S : List Byte) (v : Nat) : Prop :=
  S ≠ [] ∧ (∀ b ∈ S, IsDigit b) ∧ v = decimalValue S ∧ ∀ m, idxIntMax = some m → v ≤ m

/-- Class B of 41_encoder R112: no digit byte at all. -/
abbrev ClassB (S : List Byte) : Prop := ∀ b ∈ S, ¬ IsDigit b

/-- `L` is the value of the three digits at the offsets `p + 1` to `p + 3` of `B`, 30_encoding R64. -/
def HasLength (B : List Byte) (p L : Nat) : Prop :=
  ∃ a b c, B[p + 1]? = some a ∧ B[p + 2]? = some b ∧ B[p + 3]? = some c ∧ IsDigit a ∧ IsDigit b ∧ IsDigit c ∧
    L = 100 * (a.toNat - 0x30) + 10 * (b.toNat - 0x30) + (c.toNat - 0x30)

/-- The bytes the checksum of a frame covers, frame offsets 1 to `L + 4` (30_encoding R60, R67). -/
def interiorBytes (L : Nat) (i : Byte) (cmd dat : List Byte) : List Byte :=
  [BitVec.ofNat 8 (0x30 + L / 100), BitVec.ofNat 8 (0x30 + L / 10 % 10), BitVec.ofNat 8 (0x30 + L % 10), i]
    ++ cmd ++ dat ++ [0x03#8]

/-- A frame, the encoder's view (30_encoding R60). -/
def frameBytes (L : Nat) (i : Byte) (cmd dat field : List Byte) : List Byte :=
  [0x02#8] ++ interiorBytes L i cmd dat ++ field

/-- The record of a frame operand `F` with embedded length `L`, the decoder's view (30_encoding R69, 42_decoder R131). -/
def frameRecord (F : List Byte) (L : Nat) : Record :=
  { length := L
    command := (F.drop 5).take 3
    data := (F.drop 8).take (L - 4)
    checksum := ckText (crcFold ((F.drop 1).take (F.length - 5)))
    incoming := F.drop (F.length - 4) }

/-- The walk of the scanner from offset `p` of `B`, rule by rule: which records it makes from there and how it ends
(43_scanner R151 to R153). -/
inductive ScanFrom (B : List Byte) : Nat → List Record → Status → Prop where
  /-- The cursor has reached or passed the end. -/
  | stop {p : Nat} : B.length ≤ p → ScanFrom B p [] .ok
  /-- A byte that is no start marker is skipped. -/
  | skip {p : Nat} {b : Byte} {rs : List Record} {st : Status} :
      B[p]? = some b → b ≠ 0x02#8 → ScanFrom B (p + 1) rs st → ScanFrom B p rs st
  /-- R153 (a): fewer than 3 bytes follow a start marker. -/
  | short {p : Nat} : B[p]? = some 0x02#8 → B.length < p + 4 → ScanFrom B p [] (.error .truncatedFrame)
  /-- R153 (b): the 3 bytes after it are not all digits. -/
  | malformed {p : Nat} : B[p]? = some 0x02#8 → p + 4 ≤ B.length → (∀ L, ¬ HasLength B p L) →
      ScanFrom B p [] (.error .malformedLength)
  /-- R153 (c): the frame would end beyond the buffer. -/
  | overrun {p L : Nat} : B[p]? = some 0x02#8 → HasLength B p L → B.length < p + L + 9 →
      ScanFrom B p [] (.error .truncatedFrame)
  /-- A frame: its record, and on from `p + L + 1` (R152). -/
  | frame {p L : Nat} {rs : List Record} {st : Status} :
      B[p]? = some 0x02#8 → HasLength B p L → p + L + 9 ≤ B.length → ScanFrom B (p + L + 1) rs st →
      ScanFrom B p (frameRecord ((B.drop p).take (L + 9)) L :: rs) st

/-- `F` is a frame that ENCODE of these operands from this state may deliver, with this tag: the one it delivers or, when
the tag is SHORT, that frame with any other byte drawn for `CK_PAD` (00_scope R12: any of the 256 values). -/
def EncodesTo (idxs cmd dat : List Byte) (s : State) (F : List Byte) (tag : Tag) : Prop :=
  ∃ out, Delivers (exec (.encode idxs cmd dat) s) .ok (some (.frame out tag)) ∧
    (F = out ∨ tag = .short ∧ ∃ pad, F = out.dropLast ++ [pad])

/-- `F` is a frame that some ENCODE may deliver. -/
def BuiltByEncode (F : List Byte) : Prop := ∃ idxs cmd dat s tag, EncodesTo idxs cmd dat s F tag

/-- The condition of 43_scanner R156 on a frame of embedded length `len(F) - 9`: none of the offsets `L + 1` to `L + 3`
holds 0x02, and neither does the last one (which only a `CK_PAD` can make so). -/
def CleanTail (F : List Byte) : Prop :=
  (∀ k, F.length - 8 ≤ k → k ≤ F.length - 6 → F[k]? ≠ some 0x02#8) ∧ F[F.length - 1]? ≠ some 0x02#8

/-- One byte of the conventional reflected CRC with polynomial 0x8408, initial value 0 and no final exclusive-or (the
CRC-16/KERMIT of 40_checksum R96): the byte is exclusive-ored into the low half before the eight steps. -/
def kermitUpdate (c : Half) (b : Byte) : Half :=
  Nat.iterate (fun x : Half => if x.getLsbD 0 then (x >>> 1) ^^^ 0x8408#16 else x >>> 1) 8 (c ^^^ b.setWidth 16)

/-- The field widths of a decoded record, 30_encoding R73. -/
def Record.wf (r : Record) : Prop :=
  r.length ≤ 999 ∧ r.command.length = 3 ∧ r.data.length = r.length - 4 ∧ 3 ≤ r.checksum.length ∧
    r.checksum.length ≤ 5 ∧ r.incoming.length = 4

/-- What the result fields may be beside a status (30_encoding R73, 10_state R30): the form each operation delivers with
OK, nothing beside an error but the scanner's records. -/
def DeliveryWf (st : Status) (r : Option Result) : Prop :=
  match st, r with
  | .ok, none => True
  | .ok, some (.newState _) => True
  | .ok, some (.frame out _) =>
    10 ≤ out.length ∧ out.length ≤ 1008 ∧ out[0]? = some 0x02#8 ∧ out[out.length - 5]? = some 0x03#8 ∧
      HasLength out 0 (out.length - 9)
  | .ok, some (.record r) => r.wf
  | .ok, some (.records rs) => ∀ r ∈ rs, r.wf
  | .error _, none => True
  | .error e, some (.records rs) => (e = .malformedLength ∨ e = .truncatedFrame) ∧ ∀ r ∈ rs, r.wf
  | .error _, some (.newState _) => False
  | .error _, some (.frame _ _) => False
  | .error _, some (.record _) => False

/-- The register bounds of 10_state R23, under the parameters of the state. -/
def RegsBounded (c : Config) (r : Regs) : Prop :=
  r.tot ≤ 1008 ∧ (∀ m, c.idxIntMax = some m → r.idxv ≤ m) ∧ (∀ m, c.bufMax = some m → r.n ≤ m ∧ r.cur ≤ m) ∧
    (∀ m, c.opndMax = some m → r.len ≤ max 999 (1 + 2 * m))

/-- What every state keeps: legal parameters, the output buffer in its canonical form and inside its largest size, the
registers within their bounds, and a delivery of legal form. -/
def State.Inv (s : State) : Prop :=
  s.cfg.wf = true ∧ s.out.wf ∧ s.out.size ≤ 1008 ∧ RegsBounded s.cfg s.regs ∧ DeliveryWf s.status s.result

end Sys2Proof.Machine
end

