-- ==== Sys2Proof/Certificates/Slice0/Obligations.lean ====
section
/-! DEFINITION. Certificates/Slice0/Obligations.lean: the statements for the provers. -/

open Sys2Proof Sys2Proof.Machine

/-! ## The block as a whole -/

/-- 10_state R29, 70 R190: after reset the block is idle and has delivered nothing, no output buffer exists, and with
nothing asked of it any block stays as it is (that an idle step changes nothing is the model's choice, log 2). -/
def Obligations.ResetLeavesBlockIdle : Prop :=
  State.reset.inputs = [] ∧ State.reset.result = none ∧ (∀ a, State.reset.out.read a = none) ∧
    ∀ s : State, s.inputs = [] → step s = .next s

/-- 30_encoding R72, R73: a call loads `OP` and the operand ports, and the step runs the operation they select, from the
state in which the call has been taken (the list of calls is the model's choice, log 2). -/
def Obligations.StepRunsTheCalledOperation : Prop :=
  ∀ (s : State) (r : Request) (rest : List Input), s.inputs = .call r :: rest →
    step s = exec (decode r.op r.operands) { s with inputs := rest, op := r.op, ports := r.operands }

/-- The call that `encode` writes for an operation makes the step run exactly that operation, with its operands, whatever
they are. -/
def Obligations.EncodedCallRunsItsOperation : Prop :=
  ∀ (s : State) (i : Instr) (rest : List Input), s.inputs = .call (encode i) :: rest →
    step s = exec i { s with inputs := rest, op := (encode i).op, ports := (encode i).operands }

/-- The operation-select codes of the table in 30_encoding (the spec's own choice, D2; log 15), and the four table words
with zero operands. -/
def Obligations.OpCodesSelectTheFourOperations : Prop :=
  (∀ p : Operands,
    decode 0b00#2 p = .crcUpdate p.state p.byteValue ∧ decode 0b01#2 p = .encode p.idxs p.cmd p.dat ∧
    decode 0b10#2 p = .decode p.frm ∧ decode 0b11#2 p = .scan p.buf) ∧
  decodeTableWord 8 0 = some (.crcUpdate 0 0) ∧ decodeTableWord 8 1 = some (.encode [] [] []) ∧
  decodeTableWord 8 2 = some (.decode []) ∧ decodeTableWord 8 3 = some (.scan [])

/-- The codes of `STATUS` and `TAG` in 10_state (the spec's own choice, D3, D8; log 15). -/
def Obligations.StatusAndTagCodes : Prop :=
  Status.ok.code = 0 ∧ (Status.error .formatError).code = 1 ∧ (Status.error .lengthOverflow).code = 2 ∧
  (Status.error .malformedLength).code = 3 ∧ (Status.error .truncatedFrame).code = 4 ∧
  Tag.short.code = 0 ∧ Tag.fits.code = 1 ∧ Tag.truncated.code = 2

/-- 70 R192 (D16): a reset, between operations or during one, delivers nothing and leaves the block idle; the operand
ports stay as the caller has them. That the parameters, the draws and the rest of the inputs stay is log 16. -/
def Obligations.ResetEventDeliversNothing : Prop :=
  ∀ (s : State) (inFlight : Option Request) (rest : List Input), s.inputs = .reset inFlight :: rest →
    ∃ t, step s = .next t ∧ t.result = none ∧ (∀ a, t.out.read a = none) ∧ t.cfg = s.cfg ∧ t.inputs = rest ∧
      t.draws = s.draws ∧ (inFlight = none → t.op = s.op ∧ t.ports = s.ports) ∧
      (∀ r, inFlight = some r → t.op = r.op ∧ t.ports = r.operands)

/-- 10_state R20: what an operation delivers is a function of its operands alone (and of the draw): from any two states
of the same block parameters and draw counter, whatever earlier operations have left in them, it ends in the same
way, with the same status and the same result. The draw counter, in premise and conclusion, is the model's own field
(log 5), and the parameters stand in State (log 4). R20 lets only ENCODE depend on the draw: for the other three that is
said by CrcUpdateRunsEightShiftSteps, DecodeReturnsTheRecord, DecodeReportsTheFirstFailedCheck, DecodeSucceedsExactlyWhen
and ScanFollowsTheCursorWalk. -/
def Obligations.ResultDependsOnOperandsOnly : Prop :=
  ∀ (i : Instr) (s s' : State), s'.cfg = s.cfg → s'.draws = s.draws →
    (∀ t, exec i s = .next t →
      ∃ t', exec i s' = .next t' ∧ t'.status = t.status ∧ t'.result = t.result ∧ t'.draws = t.draws) ∧
    (∀ r, exec i s = .refused r → exec i s' = .refused r)

/-- 20_memory R45, 10_state R27: no operation changes an operand port or buffer, `OP`, what the caller does next, or a
parameter. -/
def Obligations.OperationsLeaveTheCallersSideAlone : Prop :=
  ∀ (i : Instr) (s t : State), exec i s = .next t →
    t.ports = s.ports ∧ t.op = s.op ∧ t.inputs = s.inputs ∧ t.cfg = s.cfg

/-- 10_state R21, 20_memory R43: which registers each operation writes, and that only ENCODE writes `OUT`: every register
an operation does not use, and for the other three every offset of `OUT`, is as before. (That registers keep a
value between operations at all is log 9; the draw counter is the model's own field, log 5.) -/
def Obligations.EachOperationWritesItsOwnRegisters : Prop :=
  (∀ (state : Half) (byteValue : Byte) (s t : State), exec (.crcUpdate state byteValue) s = .next t →
    (∃ w, t.regs = { s.regs with w := w }) ∧ t.out = s.out ∧ (∀ a, t.out.read a = s.out.read a) ∧
      t.draws = s.draws) ∧
  (∀ (idxs cmd dat : List Byte) (s t : State), exec (.encode idxs cmd dat) s = .next t →
    t.regs.cur = s.regs.cur ∧ t.regs.n = s.regs.n) ∧
  (∀ (frm : List Byte) (s t : State), exec (.decode frm) s = .next t →
    (∃ w c l i n, t.regs = { s.regs with w := w, crc := c, len := l, idx := i, n := n }) ∧ t.out = s.out ∧
      (∀ a, t.out.read a = s.out.read a) ∧ t.draws = s.draws) ∧
  (∀ (buf : List Byte) (s t : State), exec (.scan buf) s = .next t →
    t.regs.idxv = s.regs.idxv ∧ t.regs.tag = s.regs.tag ∧ t.out = s.out ∧
      (∀ a, t.out.read a = s.out.read a) ∧ t.draws = s.draws)

/-- 10_state R30 (D26): an operation that ends with an error delivers no result field, but for the list of records of
SCAN; CRC_UPDATE never ends with one. -/
def Obligations.ErrorsDeliverNothingButScannedRecords : Prop :=
  ∀ (i : Instr) (s t : State) (e : CodecError), exec i s = .next t → t.status = .error e →
    (∀ st b, i ≠ .crcUpdate st b) ∧
    ((∀ buf, i ≠ .scan buf) → t.result = none) ∧
    ((∃ buf, i = .scan buf) → ∃ rs, t.result = some (.records rs))

/-- 30_encoding R73: the `STATUS` values each operation can end with. -/
def Obligations.StatusValuesOfEachOperation : Prop :=
  ∀ (i : Instr) (s t : State), exec i s = .next t →
    match i with
    | .crcUpdate _ _ => t.status = .ok
    | .encode _ _ _ => t.status = .ok ∨ t.status = .error .formatError ∨ t.status = .error .lengthOverflow
    | .decode _ => t.status = .ok ∨ t.status = .error .malformedLength ∨ t.status = .error .truncatedFrame
    | .scan _ => t.status = .ok ∨ t.status = .error .malformedLength ∨ t.status = .error .truncatedFrame

/-- 60 R184 (D25, 93 U7): an operation with an operand above its capacity is refused, whatever else holds of it. -/
def Obligations.OperandsOverCapacityAreRefused : Prop :=
  ∀ (i : Instr) (s : State), i.wf s.cfg = false → exec i s = .refused .operandTooLong

/-- The invariant of Safety.lean holds after reset (the register and parameter values are the model's, log 4, 6, 7). -/
def Obligations.ResetMeetsTheInvariant : Prop := State.reset.Inv

/-- 10_state R23, R30, 30_encoding R73, 41_encoder R117: every step keeps legal parameters, the output buffer canonical
and at most 1008 offsets long, every register within the bound of R23, and only deliveries of legal form. -/
def Obligations.EveryStepKeepsTheInvariant : Prop :=
  ∀ s t : State, s.Inv → step s = .next t → t.Inv

/-! ## The Checksum Engine -/

/-- 40_checksum R90: CRC_UPDATE answers the low 16 bits of the working value after the eight steps, with STATUS OK, and
changes nothing but `W`. -/
def Obligations.CrcUpdateRunsEightShiftSteps : Prop :=
  ∀ (state : Half) (byteValue : Byte) (s : State), ∃ W : Nat → Work,
    W 0 = (byteValue.setWidth 24 <<< 16) + state.setWidth 24 ∧
    (∀ k, k < 8 → W (k + 1) = if (W k).getLsbD 0 = true then (W k >>> 1) ^^^ 0x008408#24 else W k >>> 1) ∧
    exec (.crcUpdate state byteValue) s =
      .next { s with
        regs := { s.regs with w := W 8 }
        status := .ok
        result := some (.newState ((W 8).extractLsb' 0 16)) }

/-- 40_checksum R95 (a), (b): linear over exclusive-or, and the input byte lands in the high half untouched. -/
def Obligations.CrcUpdateIsLinearOverXor : Prop :=
  (∀ (s₁ s₂ : Half) (b₁ b₂ : Byte), crcUpdate (s₁ ^^^ s₂) (b₁ ^^^ b₂) = crcUpdate s₁ b₁ ^^^ crcUpdate s₂ b₂) ∧
  (∀ (s : Half) (b : Byte), crcUpdate s b = crcUpdate s 0x00#8 ^^^ (b.setWidth 16 <<< 8))

/-- 40_checksum R95 (c): feeding a zero byte is a bijection of the 16-bit states. -/
def Obligations.ZeroByteUpdateIsBijective : Prop :=
  Function.Bijective (fun s : Half => crcUpdate s 0x00#8)

/-- 40_checksum R95 (d), 95 P8: changing exactly one byte of a sequence always changes its checksum. -/
def Obligations.OneByteChangeChangesTheChecksum : Prop :=
  ∀ (pre post : List Byte) (b b' : Byte), b ≠ b' → crcFold (pre ++ b :: post) ≠ crcFold (pre ++ b' :: post)

/-- 40_checksum R95 (e), R96: with two further zero bytes the engine gives the conventional reflected CRC of the bytes. -/
def Obligations.TwoZeroBytesGiveTheReflectedCrc : Prop :=
  ∀ S : List Byte, crcFold (S ++ [0x00#8, 0x00#8]) = S.foldl kermitUpdate 0x0000#16

/-- 40_checksum R91: the checksum of a byte sequence is what a caller obtains with one CRC_UPDATE per byte, in ascending
order, from state 0, handing each result back as the next state. -/
def Obligations.ChecksumIsOneUpdatePerByte : Prop :=
  ∀ (S : List Byte) (s : State), ∃ c : Nat → Half, c 0 = 0x0000#16 ∧
    (∀ j b, S[j]? = some b → Delivers (exec (.crcUpdate (c j) b) s) .ok (some (.newState (c (j + 1))))) ∧
    crcFold S = c S.length

/-! ## The text forms -/

/-- 40_checksum R92 to R94, 30_encoding R68: the checksum text, its tag and the 4-byte field, in the three cases by value,
for every byte `CK_PAD` (most significant digit first and the ASCII codes: D23, log 20). -/
def Obligations.ChecksumTextTagAndField : Prop :=
  ∀ (c : Half) (pad : Byte),
    let hex : Nat → Byte := fun h => if h ≤ 9 then BitVec.ofNat 8 (0x30 + h) else BitVec.ofNat 8 (0x61 + (h - 10))
    let h3 := hex (c.toNat / 4096)
    let h2 := hex (c.toNat / 256 % 16)
    let h1 := hex (c.toNat / 16 % 16)
    let h0 := hex (c.toNat % 16)
    (c.toNat ≤ 0x00FF → ckText c = [h1, h0, 0x20#8] ∧ ckTag c = .short ∧ ckField c pad = [h1, h0, 0x20#8, pad]) ∧
    (0x0100 ≤ c.toNat → c.toNat ≤ 0x0FFF →
      ckText c = [h2, h1, h0, 0x20#8] ∧ ckTag c = .fits ∧ ckField c pad = [h2, h1, h0, 0x20#8]) ∧
    (0x1000 ≤ c.toNat →
      ckText c = [h3, h2, h1, h0, 0x20#8] ∧ ckTag c = .truncated ∧ ckField c pad = [h3, h2, h1, h0])

/-- 40_checksum R92, R94: different checksums give different texts, and different fields whatever `CK_PAD` is. -/
def Obligations.ChecksumTextIsInjective : Prop :=
  (∀ c d : Half, ckText c = ckText d → c = d) ∧
  (∀ (c d : Half) (p q : Byte), ckField c p = ckField d q → c = d)

/-- 30_encoding R63, R64: the length field of every L up to 999 is its three decimal digits and parses back to L; three
bytes parse exactly when all are digits, and then only to the value they are the text of. -/
def Obligations.LengthFieldParsesBack : Prop :=
  (∀ L, L ≤ 999 →
    lenText L = [BitVec.ofNat 8 (0x30 + L / 100), BitVec.ofNat 8 (0x30 + L / 10 % 10), BitVec.ofNat 8 (0x30 + L % 10)] ∧
    lenParse (lenText L) = some L) ∧
  (∀ a b c : Byte, (∃ L, lenParse [a, b, c] = some L) ↔ IsDigit a ∧ IsDigit b ∧ IsDigit c) ∧
  (∀ (a b c : Byte) (L : Nat), lenParse [a, b, c] = some L → L ≤ 999 ∧ lenText L = [a, b, c])

/-- 00_scope R10, 20_memory R42: a read inside the operand delivers exactly its bytes, a read that would pass the end
delivers none of them. -/
def Obligations.BufferReadsAreBoundsChecked : Prop :=
  (∀ (B : List Byte) (off n : Nat), off + n ≤ B.length →
    ∃ d, memRead B off n = some d ∧ d.length = n ∧ ∀ k, k < n → d[k]? = B[off + k]?) ∧
  (∀ (B : List Byte) (off n : Nat), B.length < off + n → memRead B off n = none) ∧
  (∀ (B : List Byte) (off : Nat), memReadByte B off = none ↔ B.length ≤ off)

/-! ## ENCODE -/

/-- 41_encoder R114, R116, 30_encoding R60, 40_checksum R94: with operands within capacity, a class A index and at most
999 content bytes, ENCODE answers, with STATUS OK, exactly the frame of 30_encoding's table: registers, `OUT` offset by offset
(every one of its `LEN + 9` offsets written, none beyond), tag, and a draw of `CK_PAD` exactly when the tag is SHORT
(the form of the draw is log 5). `N` and `CUR` and all else stay. -/
def Obligations.EncodeBuildsTheFrame : Prop :=
  ∀ (idxs cmd dat : List Byte) (v : Nat) (s : State),
    (Instr.encode idxs cmd dat).wf s.cfg = true → ClassA s.cfg.idxIntMax idxs v → 1 + cmd.length + dat.length ≤ 999 →
    let L := 1 + cmd.length + dat.length
    let i : Byte := BitVec.ofNat 8 (v % 256)
    let c := crcFold (interiorBytes L i cmd dat)
    let frame := frameBytes L i cmd dat (ckField c (Config.ckPad s.draws))
    ∃ t, exec (.encode idxs cmd dat) s = .next t ∧ t.status = .ok ∧ t.result = some (.frame frame (ckTag c)) ∧
      t.regs = { s.regs with len := L, tot := L + 9, idxv := v, idx := i, crc := c, tag := ckTag c, w := t.regs.w } ∧
      t.out.size = L + 9 ∧ t.out.wf ∧ (∀ a, t.out.read a = frame[a]?) ∧
      t.draws = (if ckTag c = .short then s.draws + 1 else s.draws) ∧
      t.cfg = s.cfg ∧ t.inputs = s.inputs ∧ t.op = s.op ∧ t.ports = s.ports

/-- 41_encoder R113: byte 4 of the frame is the parsed index mod 256, for every index the parser accepts; neither the
status nor anything else reports the truncation. -/
def Obligations.EncodeWrapsTheIndexToOneByte : Prop :=
  ∀ (idxs cmd dat : List Byte) (v : Nat) (s : State),
    (Instr.encode idxs cmd dat).wf s.cfg = true → ClassA s.cfg.idxIntMax idxs v → 1 + cmd.length + dat.length ≤ 999 →
    ∃ out tag, Delivers (exec (.encode idxs cmd dat) s) .ok (some (.frame out tag)) ∧
      out[4]? = some (BitVec.ofNat 8 (v % 256))

/-- 41_encoder R111, 60 R172: a length of 1000 or more ends with LengthOverflowError and builds nothing, for every index
string; a length of at most 999 never does. Only `LEN`, the status and the (absent) result change. That the overflow is
reported whatever the index string is, is the spec's step order (D6, log 17); that `LEN` keeps its value after the error
is the model's choice (log 9). -/
def Obligations.EncodeRejectsLengthOverflow : Prop :=
  ∀ (idxs cmd dat : List Byte) (s : State), (Instr.encode idxs cmd dat).wf s.cfg = true →
    (999 < 1 + cmd.length + dat.length →
      exec (.encode idxs cmd dat) s =
        .next { s with
          regs := { s.regs with len := 1 + cmd.length + dat.length }
          status := .error .lengthOverflow
          result := none }) ∧
    (1 + cmd.length + dat.length ≤ 999 → ∀ t, exec (.encode idxs cmd dat) s = .next t → t.status ≠ .error .lengthOverflow)

/-- 41_encoder R112, 60 R171 (the classes are D5): with at most 999 content bytes, an index string without any digit ends
with FormatError, no `OUT` and no `TAG`; `LEN` and `TOT` hold the length and size, `OUT` was written at offsets 0 to 3
(log 9), all else stays; and FormatError is raised for no other index string. -/
def Obligations.EncodeRaisesFormatError : Prop :=
  (∀ (idxs cmd dat : List Byte) (s : State),
    (Instr.encode idxs cmd dat).wf s.cfg = true → ClassB idxs → 1 + cmd.length + dat.length ≤ 999 →
    ∃ t, exec (.encode idxs cmd dat) s = .next t ∧ t.status = .error .formatError ∧ t.result = none ∧
      t.regs = { s.regs with len := 1 + cmd.length + dat.length, tot := 1 + cmd.length + dat.length + 9 } ∧
      (∀ a, t.out.read a = (0x02#8 :: lenText (1 + cmd.length + dat.length))[a]?) ∧
      t.draws = s.draws ∧ t.cfg = s.cfg ∧ t.inputs = s.inputs ∧ t.op = s.op ∧ t.ports = s.ports) ∧
  (∀ (idxs cmd dat : List Byte) (s t : State), exec (.encode idxs cmd dat) s = .next t →
    t.status = .error .formatError → ClassB idxs ∧ 1 + cmd.length + dat.length ≤ 999)

/-- 60 R184, 41_encoder R112 (D5, D25; 93 U1, U2): within capacity ENCODE gives a result exactly when the length overflows
or the index string is of class A or of class B; a class C string that is parsed is refused under its own name. -/
def Obligations.EncodeAnswersExactlyOutsideClassC : Prop :=
  ∀ (idxs cmd dat : List Byte) (s : State), (Instr.encode idxs cmd dat).wf s.cfg = true →
    ((∃ t, exec (.encode idxs cmd dat) s = .next t) ↔
      999 < 1 + cmd.length + dat.length ∨ (∃ v, ClassA s.cfg.idxIntMax idxs v) ∨ ClassB idxs) ∧
    (1 + cmd.length + dat.length ≤ 999 → (∃ b ∈ idxs, IsDigit b) → (∃ b ∈ idxs, ¬ IsDigit b) →
      exec (.encode idxs cmd dat) s = .refused .indexMixed) ∧
    (1 + cmd.length + dat.length ≤ 999 → idxs ≠ [] → (∀ b ∈ idxs, IsDigit b) →
      (∃ m, s.cfg.idxIntMax = some m ∧ m < decimalValue idxs) →
      exec (.encode idxs cmd dat) s = .refused .indexTooLarge)

/-- 30_encoding R61, 41_encoder R117 (a), (b), (c), (e): whatever frame ENCODE may deliver has its embedded length plus 9
bytes, 10 to 1008 of them, its markers, and command and data unmodified between. -/
def Obligations.EncodedFrameSize : Prop :=
  ∀ (idxs cmd dat out : List Byte) (tag : Tag) (s : State), EncodesTo idxs cmd dat s out tag →
    ∃ L, HasLength out 0 L ∧ out.length = L + 9 ∧ L = 1 + cmd.length + dat.length ∧ 10 ≤ out.length ∧
      out.length ≤ 1008 ∧ out[0]? = some 0x02#8 ∧ out[L + 4]? = some 0x03#8 ∧ (out.drop 5).take (L - 1) = cmd ++ dat

/-- 40_checksum R97, 20_memory R48, 95 P2: two ENCODEs of the same operands, with any draws and from any states of equal
parameters, deliver equal tags and equal frames but for the last byte, and that only when the tag is SHORT. -/
def Obligations.EncodeRepeatsUpToCkPad : Prop :=
  ∀ (idxs cmd dat out out' : List Byte) (tag tag' : Tag) (s s' : State), s'.cfg = s.cfg →
    Delivers (exec (.encode idxs cmd dat) s) .ok (some (.frame out tag)) →
    Delivers (exec (.encode idxs cmd dat) s') .ok (some (.frame out' tag')) →
    tag' = tag ∧ out'.length = out.length ∧ (∀ k, k + 1 < out.length → out'[k]? = out[k]?) ∧
      (tag ≠ .short → out' = out)

/-! ## DECODE -/

/-- 42_decoder R131, R133, R134: on an operand of at least 8 bytes with three length digits and `LEN + 4 <= N`, DECODE
answers the record of the fixed offsets with STATUS OK; its checksum range and `incoming` are placed from the end of
the operand. `N`, `LEN`, `IDX`, `CRC` (with `W`) are written and all else stays. -/
def Obligations.DecodeReturnsTheRecord : Prop :=
  ∀ (F : List Byte) (L : Nat) (i : Byte) (s : State),
    (Instr.decode F).wf s.cfg = true → 8 ≤ F.length → HasLength F 0 L → L + 4 ≤ F.length → F[4]? = some i →
    ∃ w, exec (.decode F) s =
      .next { s with
        regs := { s.regs with
          n := F.length, len := L, idx := i, crc := crcFold ((F.drop 1).take (F.length - 5)), w := w }
        status := .ok
        result := some (.record
          { length := L
            command := (F.drop 5).take 3
            data := (F.drop 8).take (L - 4)
            checksum := ckText (crcFold ((F.drop 1).take (F.length - 5)))
            incoming := F.drop (F.length - 4) }) }

/-- 42_decoder R132 (D11; log 17): the first check that fails, in step order, decides the error; nothing else is
delivered. -/
def Obligations.DecodeReportsTheFirstFailedCheck : Prop :=
  ∀ (F : List Byte) (s : State), (Instr.decode F).wf s.cfg = true →
    (F.length < 4 → Delivers (exec (.decode F) s) (.error .truncatedFrame) none) ∧
    (4 ≤ F.length → (∀ L, ¬ HasLength F 0 L) → Delivers (exec (.decode F) s) (.error .malformedLength) none) ∧
    (∀ L, HasLength F 0 L → F.length < 8 → Delivers (exec (.decode F) s) (.error .truncatedFrame) none) ∧
    (∀ L, HasLength F 0 L → 8 ≤ F.length → 4 < L → F.length < L + 4 →
      Delivers (exec (.decode F) s) (.error .truncatedFrame) none)

/-- 42_decoder R133: DECODE returns a record exactly when the operand has 8 bytes, three length digits, and `LEN + 4`
bytes. -/
def Obligations.DecodeSucceedsExactlyWhen : Prop :=
  ∀ (F : List Byte) (s : State), (Instr.decode F).wf s.cfg = true →
    ∃ t, exec (.decode F) s = .next t ∧
      ((∃ r, t.status = .ok ∧ t.result = some (.record r)) ↔ 8 ≤ F.length ∧ ∃ L, HasLength F 0 L ∧ L + 4 ≤ F.length)

/-- 42_decoder R136: offset 0 is never read: the first byte makes no difference to anything DECODE does. -/
def Obligations.DecodeNeverReadsTheStartMarker : Prop :=
  ∀ (a b : Byte) (F : List Byte) (s : State), exec (.decode (a :: F)) s = exec (.decode (b :: F)) s

/-- 60 R180, 42_decoder R135, 95 P7: a frame is decoded with STATUS OK whatever its last 4 bytes are; length, command,
data and recomputed checksum do not depend on them, and `incoming` is those 4 bytes. -/
def Obligations.ChecksumMismatchIsNoError : Prop :=
  ∀ (P q : List Byte) (L : Nat) (s : State),
    (Instr.decode (P ++ q)).wf s.cfg = true → q.length = 4 → 8 ≤ P.length → HasLength P 0 L → L + 4 ≤ P.length →
    Delivers (exec (.decode (P ++ q)) s) .ok (some (.record
      { length := L, command := (P.drop 5).take 3, data := (P.drop 8).take (L - 4),
        checksum := ckText (crcFold (P.drop 1)), incoming := q }))

/-- 42_decoder R137, R138, 95 P1: DECODE of what ENCODE may deliver succeeds. Its length is 1 + len(command) + len(data).
A 3-byte command and its data come back as they were; a longer command is split after 3 bytes; for LEN >= 4 command
and data together are those that went in, and for LEN <= 4 no data comes back; the recomputed checksum text and the
incoming bytes agree on their first min(4, len(checksum)) bytes. For every byte `CK_PAD`. -/
def Obligations.DecodeInvertsEncode : Prop :=
  ∀ (idxs cmd dat out : List Byte) (tag : Tag) (s u : State),
    EncodesTo idxs cmd dat s out tag → (Instr.decode out).wf u.cfg = true →
    ∃ r, Delivers (exec (.decode out) u) .ok (some (.record r)) ∧
      r.length = 1 + cmd.length + dat.length ∧ r.command.length = 3 ∧
      (cmd.length = 3 → r.command = cmd ∧ r.data = dat) ∧
      (3 ≤ cmd.length → r.command = cmd.take 3 ∧ r.data = cmd.drop 3 ++ dat) ∧
      (3 ≤ cmd.length + dat.length → r.command ++ r.data = cmd ++ dat) ∧
      (cmd.length + dat.length ≤ 3 → r.data = []) ∧
      (cmd.length + dat.length < 3 → r.command = ((cmd ++ dat) ++ 0x03#8 :: r.incoming).take 3) ∧
      (∃ c, r.checksum = ckText c ∧ tag = ckTag c ∧
        r.checksum.take (min 4 r.checksum.length) = r.incoming.take (min 4 r.checksum.length))

/-! ## SCAN -/

/-- 43_scanner R151 to R153, R155, R158 (D13, D14, D15; log 17, 18): SCAN always answers, and what it delivers is what the
walk of Safety.lean gives from offset 0, and the walk gives nothing else. Parameters, ports, inputs, `OUT`, `IDXV`,
`TAG` and the draws stay. -/
def Obligations.ScanFollowsTheCursorWalk : Prop :=
  ∀ (B : List Byte) (s : State), (Instr.scan B).wf s.cfg = true →
    ∃ t rs, exec (.scan B) s = .next t ∧ t.result = some (.records rs) ∧
      (∀ rs' st', ScanFrom B 0 rs' st' ↔ rs' = rs ∧ st' = t.status) ∧
      t.regs.idxv = s.regs.idxv ∧ t.regs.tag = s.regs.tag ∧ t.regs.n = B.length ∧ t.out = s.out ∧
      t.draws = s.draws ∧ t.cfg = s.cfg ∧ t.inputs = s.inputs ∧ t.op = s.op ∧ t.ports = s.ports

/-- 10_state R23, R24, 43_scanner R153 (d): the cursor never passes the end of the buffer; a scan that ends with OK ends
with the cursor at the end, and one that ends with an error leaves it at a start marker. (That `CUR` and the error end
there is fail-and-stop, D13, log 17; that `CUR` keeps its value after the scan is log 9.) -/
def Obligations.ScanCursorStaysInTheBuffer : Prop :=
  ∀ (B : List Byte) (s t : State), exec (.scan B) s = .next t →
    t.regs.cur ≤ B.length ∧ (t.status = .ok → t.regs.cur = B.length) ∧
      (∀ e, t.status = .error e → B[t.regs.cur]? = some 0x02#8)

/-- 43_scanner R155: a buffer without the byte 0x02, the empty one included, gives the empty list with STATUS OK. -/
def Obligations.ScanWithoutStartMarkerFindsNothing : Prop :=
  ∀ (B : List Byte) (s : State), (Instr.scan B).wf s.cfg = true → (∀ b ∈ B, b ≠ 0x02#8) →
    Delivers (exec (.scan B) s) .ok (some (.records []))

/-- 43_scanner R154: DECODE of a slice the scanner hands over cannot fail; its length is the scanner's, its checksum range
is `F[1 .. LEN + 4]` and its `incoming` is `F[LEN + 5 .. LEN + 8]`. -/
def Obligations.InnerDecodeCannotFail : Prop :=
  ∀ (B : List Byte) (p L : Nat) (s : State),
    let F := (B.drop p).take (L + 9)
    HasLength B p L → p + L + 9 ≤ B.length → (Instr.decode F).wf s.cfg = true →
    ∃ r, Delivers (exec (.decode F) s) .ok (some (.record r)) ∧ r.length = L ∧
      r.checksum = ckText (crcFold ((F.drop 1).take (L + 4))) ∧ r.incoming = (F.drop (L + 5)).take 4

/-- 43_scanner R156, 95 P4: for frames built by ENCODE, with any draws, and put back to back, SCAN delivers exactly the records of the
frames, in order, with STATUS OK, if and only if every frame's re-examined tail is free of the byte 0x02. The condition
rests on the spec's choices: a tail is re-examined because the advance is LEN + 1 (D14), and a false start in it ends the
scan because of fail-and-stop (D13); log 17. -/
def Obligations.ScanFindsAllFramesIffTailsAreClean : Prop :=
  ∀ (Fs : List (List Byte)) (s : State), (∀ F ∈ Fs, BuiltByEncode F) → (Instr.scan Fs.flatten).wf s.cfg = true →
    (Delivers (exec (.scan Fs.flatten) s) .ok (some (.records (Fs.map fun F => frameRecord F (F.length - 9)))) ↔
      ∀ F ∈ Fs, CleanTail F)

/-- 43_scanner R156: when the first frame whose tail is not clean is `F`, SCAN delivers the records up to and with `F`'s and
ends with MalformedLengthError, or with TruncatedFrameError when the false start is the very last byte of the buffer. All
of it rests on the spec's choices fail-and-stop (D13) and the advance by LEN + 1 (D14); log 17. -/
def Obligations.ScanStopsAtTheFirstFalseStart : Prop :=
  ∀ (pre post : List (List Byte)) (F : List Byte) (s : State),
    (∀ G ∈ pre ++ F :: post, BuiltByEncode G) → (∀ G ∈ pre, CleanTail G) → ¬ CleanTail F →
    (Instr.scan (pre ++ F :: post).flatten).wf s.cfg = true →
    let rs := (pre ++ [F]).map fun G => frameRecord G (G.length - 9)
    ((post ≠ [] ∨ ∃ k, F.length - 8 ≤ k ∧ k ≤ F.length - 6 ∧ F[k]? = some 0x02#8) →
      Delivers (exec (.scan (pre ++ F :: post).flatten) s) (.error .malformedLength) (some (.records rs))) ∧
    ((post = [] ∧ ∀ k, F.length - 8 ≤ k → k ≤ F.length - 6 → F[k]? ≠ some 0x02#8) →
      Delivers (exec (.scan (pre ++ F :: post).flatten) s) (.error .truncatedFrame) (some (.records rs)))
end

