-- ==== Sys2Proof/Laws/Checksum.lean ====
section
/-! SUPPORT. Laws/Checksum.lean: the engine's loop as one equation, and what a fold does to the registers. -/

namespace Sys2Proof.Machine

@[simp] theorem crcShifts_zero (w : Work) : crcShifts 0 w = w := rfl

theorem crcShifts_succ (k : Nat) (w : Work) : crcShifts (k + 1) w = crcShifts k (crcShift w) := rfl

theorem crcShifts_succ_last (k : Nat) (w : Work) : crcShifts (k + 1) w = crcShift (crcShifts k w) := by
  induction k generalizing w with
  | zero => rfl
  | succ k ih => rw [crcShifts_succ, ih, crcShifts_succ]

@[simp] theorem crcFold_nil : crcFold [] = crcInit := rfl

/-- The fold is sequential (40_checksum R91). -/
theorem crcFold_append (S T : List Byte) : crcFold (S ++ T) = T.foldl crcUpdate (crcFold S) := by
  simp [crcFold]

/-- The loop of a fold changes `CRC` and `W` and no other register. -/
theorem foldLoop_eq (r : Regs) (S : List Byte) :
    foldLoop r S = { r with w := (foldLoop r S).w, crc := S.foldl crcUpdate r.crc } := by
  induction S generalizing r with
  | nil => rfl
  | cons b S ih => exact ih { r with w := crcWork r.crc b, crc := crcUpdate r.crc b }

theorem foldRegs_eq (r : Regs) (S : List Byte) :
    foldRegs r S = { r with w := (foldRegs r S).w, crc := crcFold S } := by
  unfold foldRegs
  rw [foldLoop_eq]
  rfl

@[simp] theorem foldRegs_crc (r : Regs) (S : List Byte) : (foldRegs r S).crc = crcFold S := by rw [foldRegs_eq]
@[simp] theorem foldRegs_len (r : Regs) (S : List Byte) : (foldRegs r S).len = r.len := by rw [foldRegs_eq]
@[simp] theorem foldRegs_idxv (r : Regs) (S : List Byte) : (foldRegs r S).idxv = r.idxv := by rw [foldRegs_eq]
@[simp] theorem foldRegs_idx (r : Regs) (S : List Byte) : (foldRegs r S).idx = r.idx := by rw [foldRegs_eq]
@[simp] theorem foldRegs_tot (r : Regs) (S : List Byte) : (foldRegs r S).tot = r.tot := by rw [foldRegs_eq]
@[simp] theorem foldRegs_cur (r : Regs) (S : List Byte) : (foldRegs r S).cur = r.cur := by rw [foldRegs_eq]
@[simp] theorem foldRegs_n (r : Regs) (S : List Byte) : (foldRegs r S).n = r.n := by rw [foldRegs_eq]
@[simp] theorem foldRegs_tag (r : Regs) (S : List Byte) : (foldRegs r S).tag = r.tag := by rw [foldRegs_eq]

end Sys2Proof.Machine
end

