-- ==== Sys2Proof/Laws/State.lean ====
section
/-! SUPPORT. Laws/State.lean: one lemma per field per update of State, so that no later proof unfolds a record update. -/

namespace Sys2Proof.Machine

section Load
variable (s : State) (r : Request)
@[simp] theorem State.load_cfg : (s.load r).cfg = s.cfg := rfl
@[simp] theorem State.load_inputs : (s.load r).inputs = s.inputs := rfl
@[simp] theorem State.load_op : (s.load r).op = r.op := rfl
@[simp] theorem State.load_ports : (s.load r).ports = r.operands := rfl
@[simp] theorem State.load_regs : (s.load r).regs = s.regs := rfl
@[simp] theorem State.load_out : (s.load r).out = s.out := rfl
@[simp] theorem State.load_status : (s.load r).status = s.status := rfl
@[simp] theorem State.load_result : (s.load r).result = s.result := rfl
@[simp] theorem State.load_draws : (s.load r).draws = s.draws := rfl
end Load

section Finish
variable (s : State) (r : Result)
@[simp] theorem State.finish_cfg : (s.finish r).cfg = s.cfg := rfl
@[simp] theorem State.finish_inputs : (s.finish r).inputs = s.inputs := rfl
@[simp] theorem State.finish_op : (s.finish r).op = s.op := rfl
@[simp] theorem State.finish_ports : (s.finish r).ports = s.ports := rfl
@[simp] theorem State.finish_regs : (s.finish r).regs = s.regs := rfl
@[simp] theorem State.finish_out : (s.finish r).out = s.out := rfl
@[simp] theorem State.finish_status : (s.finish r).status = .ok := rfl
@[simp] theorem State.finish_result : (s.finish r).result = some r := rfl
@[simp] theorem State.finish_draws : (s.finish r).draws = s.draws := rfl
end Finish

section Raise
variable (s : State) (e : CodecError) (kept : Option Result)
@[simp] theorem State.raise_cfg : (s.raise e kept).cfg = s.cfg := rfl
@[simp] theorem State.raise_inputs : (s.raise e kept).inputs = s.inputs := rfl
@[simp] theorem State.raise_op : (s.raise e kept).op = s.op := rfl
@[simp] theorem State.raise_ports : (s.raise e kept).ports = s.ports := rfl
@[simp] theorem State.raise_regs : (s.raise e kept).regs = s.regs := rfl
@[simp] theorem State.raise_out : (s.raise e kept).out = s.out := rfl
@[simp] theorem State.raise_status : (s.raise e kept).status = .error e := rfl
@[simp] theorem State.raise_result : (s.raise e kept).result = kept := rfl
@[simp] theorem State.raise_draws : (s.raise e kept).draws = s.draws := rfl
end Raise

section Reset
variable (s : State)
@[simp] theorem State.resetEvent_cfg : s.resetEvent.cfg = s.cfg := rfl
@[simp] theorem State.resetEvent_inputs : s.resetEvent.inputs = s.inputs := rfl
@[simp] theorem State.resetEvent_op : s.resetEvent.op = s.op := rfl
@[simp] theorem State.resetEvent_ports : s.resetEvent.ports = s.ports := rfl
@[simp] theorem State.resetEvent_regs : s.resetEvent.regs = Regs.reset := rfl
@[simp] theorem State.resetEvent_out : s.resetEvent.out = Memory.fresh 0 := rfl
@[simp] theorem State.resetEvent_status : s.resetEvent.status = .ok := rfl
@[simp] theorem State.resetEvent_result : s.resetEvent.result = none := rfl
@[simp] theorem State.resetEvent_draws : s.resetEvent.draws = s.draws := rfl
end Reset

end Sys2Proof.Machine
end

