-- ==== Sys2Proof/Laws/Memory.lean ====
section
/-! SUPPORT. Laws/Memory.lean: the operand reads and the output buffer: every memory operation keeps the canonical form,
reading after writing, and the buffer that has been filled from offset 0 without a gap. -/

namespace Sys2Proof.Machine

theorem memRead_eq_some_iff (B : List Byte) (off n : Nat) (d : List Byte) :
    memRead B off n = some d ↔ off + n ≤ B.length ∧ d = slice B off n := by
  unfold memRead
  split <;> rename_i h <;> simp [h, eq_comm]

theorem memRead_eq_none_iff (B : List Byte) (off n : Nat) : memRead B off n = none ↔ B.length < off + n := by
  unfold memRead
  split <;> simp <;> omega

theorem slice_length (B : List Byte) (off n : Nat) : (slice B off n).length = min n (B.length - off) := by
  simp [slice]

theorem slice_length_of_le {B : List Byte} {off n : Nat} (h : off + n ≤ B.length) : (slice B off n).length = n := by
  rw [slice_length]; omega

@[simp] theorem cellsFrom_nil (off : Nat) : cellsFrom off [] = [] := rfl

@[simp] theorem cellsFrom_cons (off : Nat) (v : Byte) (vs : List Byte) :
    cellsFrom off (v :: vs) = (off, v) :: cellsFrom (off + 1) vs := rfl

theorem cellsFrom_append (vs ws : List Byte) (off : Nat) :
    cellsFrom off (vs ++ ws) = cellsFrom off vs ++ cellsFrom (off + vs.length) ws := by
  induction vs generalizing off with
  | nil => simp
  | cons v vs ih =>
    have e : off + 1 + vs.length = off + (vs.length + 1) := by omega
    simp [ih, e]

theorem mem_cellsFrom {off : Nat} {vs : List Byte} {c : Host.Cell} (h : c ∈ cellsFrom off vs) :
    off ≤ c.1 ∧ c.1 < off + vs.length := by
  induction vs generalizing off with
  | nil => simp at h
  | cons v vs ih =>
    rw [cellsFrom_cons, List.mem_cons] at h
    rcases h with rfl | h
    · simp
    · have := ih h
      simp only [List.length_cons]; omega

theorem cellsFrom_pairwise (vs : List Byte) (off : Nat) :
    (cellsFrom off vs).Pairwise (fun c d => c.1 < d.1) := by
  induction vs generalizing off with
  | nil => simp
  | cons v vs ih =>
    refine List.pairwise_cons.2 ⟨fun c hc => ?_, ih _⟩
    have := mem_cellsFrom hc
    simp only; omega

theorem map_snd_cellsFrom (vs : List Byte) (off : Nat) : (cellsFrom off vs).map (·.2) = vs := by
  induction vs generalizing off with
  | nil => rfl
  | cons v vs ih => simp [ih]

theorem lookup_cellsFrom (vs : List Byte) (off a : Nat) :
    (cellsFrom off vs).lookup a = if off ≤ a then vs[a - off]? else none := by
  induction vs generalizing off with
  | nil => simp
  | cons v vs ih =>
    rw [cellsFrom_cons, List.lookup_cons]
    by_cases h : a = off
    · subst h; simp
    · have hb : (a == off) = false := by simpa using h
      rw [hb]
      simp only [ih]
      by_cases hle : off ≤ a
      · have e : a - off = (a - (off + 1)) + 1 := by omega
        rw [if_pos (by omega : off + 1 ≤ a), if_pos hle, e, List.getElem?_cons_succ]
      · rw [if_neg (by omega), if_neg hle]

/-- A fresh buffer has the canonical form. -/
theorem Memory.fresh_wf (size : Nat) : (Memory.fresh size).wf := by simp [Memory.fresh, Memory.wf]

/-- Writing keeps the canonical form. -/
theorem Memory.write_wf {m : Memory} (h : m.wf) (off : Nat) (v : List Byte) : (m.write off v).wf := by
  unfold Memory.write
  split
  · rename_i hfit
    obtain ⟨hp, hs⟩ := h
    refine ⟨?_, ?_⟩
    · rw [List.pairwise_append, List.pairwise_append]
      refine ⟨⟨hp.filter _, cellsFrom_pairwise v off, fun c hc d hd => ?_⟩, hp.filter _, fun c hc d hd => ?_⟩
      · have h1 := (List.mem_filter.1 hc).2
        have h2 := mem_cellsFrom hd
        simp only [decide_eq_true_eq] at h1; omega
      · have h2 := (List.mem_filter.1 hd).2
        simp only [decide_eq_true_eq] at h2
        rcases List.mem_append.1 hc with hc | hc
        · have h1 := (List.mem_filter.1 hc).2
          simp only [decide_eq_true_eq] at h1; omega
        · have h1 := mem_cellsFrom hc; omega
    · intro c hc
      rcases List.mem_append.1 hc with hc | hc
      · rcases List.mem_append.1 hc with hc | hc
        · exact hs c (List.mem_filter.1 hc).1
        · have := mem_cellsFrom hc; simp only; omega
      · exact hs c (List.mem_filter.1 hc).1
  · exact h

theorem Memory.write_size (m : Memory) (off : Nat) (v : List Byte) : (m.write off v).size = m.size := by
  unfold Memory.write; split <;> rfl

theorem lookup_append_cells (xs ys : List Host.Cell) (a : Nat) :
    (xs ++ ys).lookup a = (xs.lookup a).or (ys.lookup a) := by
  induction xs with
  | nil => simp
  | cons c xs ih =>
    rw [List.cons_append, List.lookup_cons, List.lookup_cons, ih]
    cases a == c.1 <;> simp

theorem lookup_filter_cells (p : Nat → Bool) (xs : List Host.Cell) (a : Nat) :
    (xs.filter (fun c => p c.1)).lookup a = if p a then xs.lookup a else none := by
  induction xs with
  | nil => simp
  | cons c xs ih =>
    obtain ⟨k, b⟩ := c
    by_cases hp : p k = true
    · rw [List.filter_cons_of_pos (by exact hp), List.lookup_cons, List.lookup_cons, ih]
      cases hb : a == k
      · simp
      · have : a = k := by simpa using hb
        simp [this, hp]
    · rw [List.filter_cons_of_neg (by exact hp), List.lookup_cons, ih]
      cases hb : a == k
      · simp
      · have : a = k := by simpa using hb
        simp [this, hp]

/-- Everything a write that fits does to the bytes of the buffer. -/
theorem Memory.read_write {m : Memory} {off : Nat} {v : List Byte} (hfit : off + v.length ≤ m.size) (a : Nat) :
    (m.write off v).read a = if off ≤ a ∧ a < off + v.length then v[a - off]? else m.read a := by
  unfold Memory.write Memory.read
  rw [if_pos hfit]
  simp only [lookup_append_cells, lookup_cellsFrom]
  rw [lookup_filter_cells (fun x => decide (x < off)), lookup_filter_cells (fun x => decide (off + v.length ≤ x))]
  by_cases h1 : a < off
  · have h2 : ¬ off ≤ a := by omega
    have h3 : ¬ off + v.length ≤ a := by omega
    simp [h1, h2, h3]
  · have h2 : off ≤ a := by omega
    by_cases h3 : a < off + v.length
    · have h4 : ¬ off + v.length ≤ a := by omega
      simp [h1, h2, h3, h4]
    · have h4 : off + v.length ≤ a := by omega
      have h5 : v[a - off]? = none := by simp; omega
      simp [h1, h3, h4, h5]

/-- The buffer of `size` offsets whose first bytes are `vs` and whose other offsets are not written. -/
def Memory.filled (size : Nat) (vs : List Byte) : Memory := { size := size, cells := cellsFrom 0 vs }

theorem Memory.fresh_eq_filled (size : Nat) : Memory.fresh size = Memory.filled size [] := rfl

theorem Memory.filled_wf {size : Nat} {vs : List Byte} (h : vs.length ≤ size) : (Memory.filled size vs).wf := by
  refine ⟨cellsFrom_pairwise vs 0, fun c hc => ?_⟩
  have := mem_cellsFrom hc
  simp only [Memory.filled]; omega

@[simp] theorem Memory.filled_size (size : Nat) (vs : List Byte) : (Memory.filled size vs).size = size := rfl

theorem Memory.read_filled (size : Nat) (vs : List Byte) (a : Nat) : (Memory.filled size vs).read a = vs[a]? := by
  simp [Memory.read, Memory.filled, lookup_cellsFrom]

/-- Writing right after the last written byte appends. -/
theorem Memory.filled_write {size : Nat} {vs : List Byte} {off : Nat} (hoff : off = vs.length) {v : List Byte}
    (hfit : off + v.length ≤ size) : (Memory.filled size vs).write off v = Memory.filled size (vs ++ v) := by
  subst hoff
  have hlt : (cellsFrom 0 vs).filter (fun c => decide (c.1 < vs.length)) = cellsFrom 0 vs :=
    List.filter_eq_self.2 fun c hc => by have := mem_cellsFrom hc; simpa using this.2
  have hge : (cellsFrom 0 vs).filter (fun c => decide (vs.length + v.length ≤ c.1)) = [] :=
    List.filter_eq_nil_iff.2 fun c hc => by have := mem_cellsFrom hc; simp; omega
  unfold Memory.write
  rw [if_pos (by simpa using hfit)]
  simp [Memory.filled, hlt, hge, cellsFrom_append]

theorem filter_cellsFrom_range (vs : List Byte) (base off n : Nat) (hbase : base ≤ off) :
    ((cellsFrom base vs).filter (fun c => decide (off ≤ c.1) && decide (c.1 < off + n))).map (·.2)
      = (vs.drop (off - base)).take n := by
  induction vs generalizing base n off with
  | nil => simp
  | cons v vs ih =>
    by_cases h : off = base
    · subst h
      cases n with
      | zero =>
        have h0 : (cellsFrom off (v :: vs)).filter (fun c => decide (off ≤ c.1) && decide (c.1 < off + 0)) = [] :=
          List.filter_eq_nil_iff.2 fun c _ => by simp
        rw [h0]; simp
      | succ n =>
        have hrest : (cellsFrom (off + 1) vs).filter (fun c => decide (off ≤ c.1) && decide (c.1 < off + (n + 1)))
            = (cellsFrom (off + 1) vs).filter (fun c => decide (off + 1 ≤ c.1) && decide (c.1 < off + 1 + n)) :=
          List.filter_congr fun c hc => by
            have := mem_cellsFrom hc
            have e1 : (off ≤ c.1) = (off + 1 ≤ c.1) := by simp; omega
            have e2 : (c.1 < off + (n + 1)) = (c.1 < off + 1 + n) := by simp; omega
            simp only [e1, e2]
        rw [cellsFrom_cons, List.filter_cons_of_pos (by simp), List.map_cons, hrest, ih (off + 1) (off + 1) n (le_refl _)]
        simp
    · have e : off - base = (off - (base + 1)) + 1 := by omega
      have hn : ¬ off ≤ base := by omega
      rw [cellsFrom_cons, List.filter_cons_of_neg (by simp [hn]), ih (base + 1) off n (by omega), e, List.drop_succ_cons]

theorem Memory.slice_filled (size : Nat) (vs : List Byte) (off n : Nat) :
    (Memory.filled size vs).slice off n = Machine.slice vs off n := by
  simpa [Memory.slice, Memory.filled, Machine.slice] using filter_cellsFrom_range vs 0 off n (Nat.zero_le _)

theorem Memory.bytes_filled {size : Nat} {vs : List Byte} (h : vs.length ≤ size) : (Memory.filled size vs).bytes = vs := by
  rw [Memory.bytes, Memory.slice_filled]
  simp [Machine.slice, h]

end Sys2Proof.Machine
end

