-- ==== Sys2Proof/Laws/Text.lean ====
section
/-! SUPPORT. Laws/Text.lean: the length field, the index string and the checksum text. -/

namespace Sys2Proof.Machine

theorem isDigit_iff (b : Byte) : isDigit b = true ↔ IsDigit b := by simp [isDigit, IsDigit]

@[simp] theorem lenText_length (L : Nat) : (lenText L).length = 3 := rfl

theorem decChar_isDigit {d : Nat} (h : d ≤ 9) : isDigit (decChar d) = true := by
  interval_cases d <;> decide

theorem digitVal_decChar {d : Nat} (h : d ≤ 9) : digitVal (decChar d) = d := by
  interval_cases d <;> decide

theorem decChar_ne_stx {d : Nat} (h : d ≤ 9) : decChar d ≠ 0x02#8 := by
  interval_cases d <;> decide

/-- `LEN_PARSE` at offset `p` of a buffer, in the terms of the statements. -/
theorem lenParse_slice_iff {B : List Byte} {p : Nat} (h : p + 4 ≤ B.length) (L : Nat) :
    lenParse (slice B (p + 1) 3) = some L ↔ HasLength B p L := by
  have h1 : p + 1 < B.length := by omega
  have h2 : p + 2 < B.length := by omega
  have h3 : p + 3 < B.length := by omega
  have hs : slice B (p + 1) 3 = [B[p + 1], B[p + 2], B[p + 3]] := by
    unfold slice
    rw [List.drop_eq_getElem_cons h1, List.drop_eq_getElem_cons h2, List.drop_eq_getElem_cons h3]
    rfl
  rw [hs]
  unfold lenParse HasLength
  simp only [List.getElem?_eq_getElem h1, List.getElem?_eq_getElem h2, List.getElem?_eq_getElem h3, Option.some.injEq]
  constructor
  · intro h
    split at h
    · rename_i hd
      simp only [Bool.and_eq_true, isDigit_iff] at hd
      exact ⟨_, _, _, rfl, rfl, rfl, hd.1.1, hd.1.2, hd.2, by simpa [digitVal, eq_comm] using h⟩
    · cases h
  · rintro ⟨a, b, c, rfl, rfl, rfl, ha, hb, hc, rfl⟩
    rw [if_pos (by simp only [Bool.and_eq_true, isDigit_iff]; exact ⟨⟨ha, hb⟩, hc⟩)]
    rfl

theorem HasLength.length_le {B : List Byte} {p L : Nat} (h : HasLength B p L) : p + 4 ≤ B.length := by
  obtain ⟨_, _, c, _, _, h3, _⟩ := h
  have := List.getElem?_eq_some_iff.1 h3
  obtain ⟨h, _⟩ := this
  omega

theorem HasLength.le_999 {B : List Byte} {p L : Nat} (h : HasLength B p L) : L ≤ 999 := by
  obtain ⟨a, b, c, _, _, _, ha, hb, hc, rfl⟩ := h
  unfold IsDigit at ha hb hc
  omega

theorem HasLength.unique {B : List Byte} {p L M : Nat} (h : HasLength B p L) (h' : HasLength B p M) : L = M := by
  have := (lenParse_slice_iff h.length_le L).2 h
  rw [(lenParse_slice_iff h.length_le M).2 h'] at this
  exact (Option.some.inj this).symm

theorem ckText_length (c : Half) :
    (ckText c).length = match ckTag c with | .short => 3 | .fits => 4 | .truncated => 5 := by
  unfold ckText ckTag
  split
  · rfl
  · split <;> rfl

theorem ckText_length_bounds (c : Half) : 3 ≤ (ckText c).length ∧ (ckText c).length ≤ 5 := by
  rw [ckText_length]
  cases ckTag c <;> decide

/-- "the implementation must still always write exactly 4 bytes" (40_checksum R94). -/
theorem ckField_length (c : Half) (pad : Byte) : (ckField c pad).length = 4 := by
  have h := ckText_length c
  unfold ckField ckBytes
  cases ht : ckTag c <;> rw [ht] at h <;> simp [h]

/-- Field and text agree on the bytes the text defines (40_checksum R94). -/
theorem ckField_take (c : Half) (pad : Byte) :
    (ckField c pad).take (min 4 (ckText c).length) = (ckText c).take 4 := by
  have h := ckText_length_bounds c
  unfold ckField ckBytes
  by_cases h4 : 4 ≤ (ckText c).length
  · simp only [if_pos h4]
    rw [Nat.min_eq_left h4, List.take_take, Nat.min_self]
  · simp only [if_neg h4]
    rw [Nat.min_eq_right (by omega), List.take_left' rfl, List.take_of_length_le (by omega)]

theorem foldl_decValue (S : List Byte) (v : Nat) :
    S.foldl (fun v b => 10 * v + digitVal b) v = v * 10 ^ S.length + decimalValue S := by
  induction S generalizing v with
  | nil => simp [decimalValue]
  | cons b S ih =>
    rw [List.foldl_cons, ih, decimalValue, List.length_cons, pow_succ, digitVal]
    ring

theorem decValue_eq (S : List Byte) : decValue S = decimalValue S := by
  simpa [decValue] using foldl_decValue S 0

theorem within_iff (limit : Option Nat) (n : Nat) : Config.within limit n = true ↔ ∀ m, limit = some m → n ≤ m := by
  cases limit <;> simp [Config.within]

/-- `IDX_PARSE` answers a value exactly for class A. -/
theorem idxParse_value_iff (limit : Option Nat) (S : List Byte) (v : Nat) :
    idxParse limit S = .value v ↔ ClassA limit S v := by
  unfold idxParse ClassA
  rw [decValue_eq]
  by_cases hany : S.any isDigit = true
  · rw [if_pos hany]
    have hne : S ≠ [] := by rintro rfl; simp at hany
    by_cases hall : S.all isDigit = true
    · rw [if_pos hall]
      have hall' : ∀ b ∈ S, IsDigit b := fun b hb => (isDigit_iff b).1 (List.all_eq_true.1 hall b hb)
      by_cases hw : Config.within limit (decimalValue S) = true
      · rw [if_pos hw]
        have hw' := (within_iff _ _).1 hw
        constructor
        · intro h
          have hv : decimalValue S = v := by injection h
          exact ⟨hne, hall', hv.symm, by rw [← hv]; exact hw'⟩
        · rintro ⟨-, -, rfl, -⟩; rfl
      · rw [if_neg hw]
        refine ⟨nofun, ?_⟩
        rintro ⟨-, -, rfl, h⟩
        exact absurd ((within_iff _ _).2 h) hw
    · rw [if_neg hall]
      refine ⟨nofun, ?_⟩
      rintro ⟨-, h, -⟩
      exact absurd (List.all_eq_true.2 fun b hb => (isDigit_iff b).2 (h b hb)) hall
  · rw [if_neg hany]
    refine ⟨nofun, ?_⟩
    rintro ⟨hne, h, -⟩
    obtain ⟨b, hb⟩ := List.exists_mem_of_ne_nil S hne
    exact absurd (List.any_eq_true.2 ⟨b, hb, (isDigit_iff b).2 (h b hb)⟩) hany

/-- `IDX_PARSE` answers FormatError exactly for class B. -/
theorem idxParse_nonNumeric_iff (limit : Option Nat) (S : List Byte) : idxParse limit S = .nonNumeric ↔ ClassB S := by
  unfold idxParse ClassB
  by_cases hany : S.any isDigit = true
  · rw [if_pos hany]
    obtain ⟨b, hb, hd⟩ := List.any_eq_true.1 hany
    refine ⟨fun h => ?_, fun h => absurd ((isDigit_iff b).1 hd) (h b hb)⟩
    split at h
    · split at h <;> cases h
    · cases h
  · rw [if_neg hany]
    refine ⟨fun _ b hb hd => hany (List.any_eq_true.2 ⟨b, hb, (isDigit_iff b).2 hd⟩), fun _ => rfl⟩

end Sys2Proof.Machine
end

