-- ==== Sys2Proof/Laws/Decoder.lean ====
section
/-! SUPPORT. Laws/Decoder.lean: everything DECODE can do, said once. -/

namespace Sys2Proof.Machine

theorem readData_eq_some_iff (F : List Byte) (len : Nat) (d : List Byte) :
    readData F len = some d ↔ (4 < len → len + 4 ≤ F.length) ∧ d = (F.drop 8).take (len - 4) := by
  unfold readData
  split
  · rename_i h
    rw [memRead_eq_some_iff, slice]
    have e : 8 + (len - 4) = len + 4 := by omega
    simp [h, e]
  · rename_i h
    have e : len - 4 = 0 := by omega
    simp [h, e, eq_comm]

theorem readData_eq_none_iff (F : List Byte) (len : Nat) : readData F len = none ↔ 4 < len ∧ F.length < len + 4 := by
  unfold readData
  split
  · rename_i h
    rw [memRead_eq_none_iff]
    omega
  · rename_i h
    simp; omega

/-- Everything the decoder can do on `F`, in the order of its checks (42_decoder R131, R132). The registers it leaves
differ from those it got in `N`, and from step to step in `LEN`, `IDX`, `CRC` and `W`. -/
theorem decodeRun_cases (r : Regs) (F : List Byte) :
    (F.length < 4 ∧ decodeRun r F = ({ r with n := F.length }, .error .truncatedFrame)) ∨
    (4 ≤ F.length ∧ (∀ L, ¬ HasLength F 0 L) ∧ decodeRun r F = ({ r with n := F.length }, .error .malformedLength)) ∨
    (∃ L, HasLength F 0 L ∧ F.length = 4 ∧
      decodeRun r F = ({ r with n := F.length, len := L }, .error .truncatedFrame)) ∨
    (∃ L i, HasLength F 0 L ∧ F[4]? = some i ∧ (F.length < 8 ∨ (4 < L ∧ F.length < L + 4)) ∧
      decodeRun r F = ({ r with n := F.length, len := L, idx := i }, .error .truncatedFrame)) ∨
    (∃ L i w, HasLength F 0 L ∧ F[4]? = some i ∧ 8 ≤ F.length ∧ (4 < L → L + 4 ≤ F.length) ∧
      decodeRun r F =
        ({ r with n := F.length, len := L, idx := i, w := w, crc := crcFold ((F.drop 1).take (F.length - 5)) },
          .ok (frameRecord F L))) := by
  unfold decodeRun
  cases h1 : memRead F 1 3 with
  | none => exact .inl ⟨by have := (memRead_eq_none_iff F 1 3).1 h1; omega, rfl⟩
  | some d =>
    obtain ⟨h4, rfl⟩ := (memRead_eq_some_iff F 1 3 d).1 h1
    have h4' : 0 + 4 ≤ F.length := by omega
    right
    cases h2 : lenParse (slice F 1 3) with
    | none =>
      refine .inl ⟨by omega, fun L hL => ?_, by simp only [h2]⟩
      rw [(lenParse_slice_iff h4' L).2 hL] at h2
      cases h2
    | some L =>
      have hL : HasLength F 0 L := (lenParse_slice_iff h4' L).1 h2
      right
      simp only [h2, memReadByte]
      cases h3 : F[4]? with
      | none => exact .inl ⟨L, hL, by have := List.getElem?_eq_none_iff.1 h3; omega, rfl⟩
      | some i =>
        right
        simp only [decCmdLen]
        cases h5 : memRead F 5 3 with
        | none => exact .inl ⟨L, i, hL, rfl, .inl (by have := (memRead_eq_none_iff F 5 3).1 h5; omega), rfl⟩
        | some command =>
          obtain ⟨h8, rfl⟩ := (memRead_eq_some_iff F 5 3 command).1 h5
          simp only
          cases h6 : readData F L with
          | none => exact .inl ⟨L, i, hL, rfl, .inr ((readData_eq_none_iff F L).1 h6), rfl⟩
          | some data =>
            obtain ⟨hd, rfl⟩ := (readData_eq_some_iff F L data).1 h6
            right
            refine ⟨L, i, (foldRegs { r with n := F.length, len := L, idx := i } (slice F 1 (F.length - 5))).w,
              hL, rfl, by omega, hd, ?_⟩
            simp only [recordOf, foldRegs_crc, foldRegs_len, ckBytes]
            rw [foldRegs_eq]
            congr 3
            unfold slice
            exact List.take_of_length_le (by simp; omega)

/-- The decoder's result does not depend on the registers it starts with. -/
theorem decodeRun_snd (r r' : Regs) (F : List Byte) : (decodeRun r F).2 = (decodeRun r' F).2 := by
  unfold decodeRun
  cases memRead F 1 3 with
  | none => rfl
  | some d =>
    simp only
    cases lenParse d with
    | none => rfl
    | some L =>
      simp only
      cases memReadByte F 4 with
      | none => rfl
      | some i =>
        simp only
        cases memRead F 5 decCmdLen with
        | none => rfl
        | some command =>
          simp only
          cases readData F L with
          | none => rfl
          | some data => simp only [recordOf, foldRegs_crc, foldRegs_len]

end Sys2Proof.Machine
end

