-- ==== Sys2Proof/Laws/Encoder.lean ====
section
/-! SUPPORT. Laws/Encoder.lean: the buffer ENCODE writes is, write by write, the frame of 30_encoding R60; and everything
ENCODE can do, said once. -/

namespace Sys2Proof.Machine

theorem encodeHead_eq (len : Nat) : encodeHead len = Memory.filled (len + 9) (stx :: lenText len) := by
  unfold encodeHead overhead
  rw [Memory.fresh_eq_filled, Memory.filled_write, Memory.filled_write]
  all_goals first | rfl | simp

theorem interiorBytes_length (L : Nat) (i : Byte) (cmd dat : List Byte) :
    (interiorBytes L i cmd dat).length = cmd.length + dat.length + 5 := by
  simp [interiorBytes]; omega

theorem frameBytes_length (L : Nat) (i : Byte) (cmd dat field : List Byte) :
    (frameBytes L i cmd dat field).length = cmd.length + dat.length + 6 + field.length := by
  simp only [frameBytes, List.length_append, interiorBytes_length, List.length_singleton]; omega

theorem encodeBody_eq {len : Nat} {cmd dat : List Byte} (h : len = 1 + cmd.length + dat.length) (i : Byte) :
    encodeBody len i cmd dat = Memory.filled (len + 9) (0x02#8 :: interiorBytes len i cmd dat) := by
  have e4 : 4 = (stx :: lenText len).length := rfl
  have e5 : 5 = (stx :: lenText len ++ [i]).length := rfl
  have e6 : 5 + cmd.length = (stx :: lenText len ++ [i] ++ cmd).length := by simp; omega
  have e7 : len + 4 = (stx :: lenText len ++ [i] ++ cmd ++ dat).length := by simp; omega
  unfold encodeBody
  rw [encodeHead_eq, Memory.filled_write e4 (by simp), Memory.filled_write e5 (by omega),
    Memory.filled_write e6 (by omega), Memory.filled_write e7 (by simp)]
  simp [interiorBytes, lenText, decChar, stx, etx]

theorem encodeBody_slice {len : Nat} {cmd dat : List Byte} (h : len = 1 + cmd.length + dat.length) (i : Byte) :
    (encodeBody len i cmd dat).slice 1 (len + 4) = interiorBytes len i cmd dat := by
  rw [encodeBody_eq h, Memory.slice_filled, slice, List.drop_succ_cons, List.drop_zero,
    List.take_of_length_le (by rw [interiorBytes_length]; omega)]

theorem encodeBody_write_field {len : Nat} {cmd dat field : List Byte} (h : len = 1 + cmd.length + dat.length) (i : Byte)
    (hf : field.length = 4) :
    (encodeBody len i cmd dat).write (len + 5) field = Memory.filled (len + 9) (frameBytes len i cmd dat field) := by
  have hl := interiorBytes_length len i cmd dat
  rw [encodeBody_eq h, Memory.filled_write (by simp; omega) (by omega)]
  rfl

/-- The state ENCODE leaves when it succeeds with index value `v`, from the state its step 4 has left. -/
theorem encodeRest_eq {v : Nat} {cmd dat : List Byte} {s : State} (h : s.regs.len = 1 + cmd.length + dat.length) :
    ∃ w, encodeRest v cmd dat s =
      let c := crcFold (interiorBytes s.regs.len (idxByte v) cmd dat)
      let frame := frameBytes s.regs.len (idxByte v) cmd dat (ckField c (Config.ckPad s.draws))
      { s with
        regs := { s.regs with idxv := v, idx := idxByte v, w := w, crc := c, tag := ckTag c }
        out := Memory.filled (s.regs.len + 9) frame
        draws := drawsAfter (ckTag c) s.draws
        status := .ok
        result := some (.frame frame (ckTag c)) } := by
  refine ⟨(foldRegs { s.regs with idxv := v, idx := idxByte v } (interiorBytes s.regs.len (idxByte v) cmd dat)).w, ?_⟩
  have hf := ckField_length (crcFold (interiorBytes s.regs.len (idxByte v) cmd dat)) (Config.ckPad s.draws)
  have hl := frameBytes_length s.regs.len (idxByte v) cmd dat
    (ckField (crcFold (interiorBytes s.regs.len (idxByte v) cmd dat)) (Config.ckPad s.draws))
  unfold encodeRest
  simp only [encodeBody_slice h, foldRegs_crc, foldRegs_len, encodeBody_write_field h _ hf]
  rw [Memory.bytes_filled (by omega)]
  simp only [State.finish]
  rw [foldRegs_eq]

theorem encodeRun_of_overflow {idxs cmd dat : List Byte} {s : State} (h : 999 < 1 + cmd.length + dat.length) :
    encodeRun idxs cmd dat s =
      .next (({ s with regs := { s.regs with len := 1 + cmd.length + dat.length } } : State).raise .lengthOverflow none) :=
  if_pos h

theorem encodeRun_of_le {idxs cmd dat : List Byte} {s : State} (h : ¬ 999 < 1 + cmd.length + dat.length) :
    encodeRun idxs cmd dat s =
      let len := 1 + cmd.length + dat.length
      let s2 : State := { s with regs := { s.regs with len := len, tot := len + 9 }, out := encodeHead len }
      match idxParse s.cfg.idxIntMax idxs with
      | .nonNumeric => .next (s2.raise .formatError none)
      | .mixed => .refused .indexMixed
      | .tooLarge => .refused .indexTooLarge
      | .value v => .next (encodeRest v cmd dat s2) :=
  if_neg h

theorem execEncode_of_wf {idxs cmd dat : List Byte} {s : State} (h : (Instr.encode idxs cmd dat).wf s.cfg = true) :
    execEncode idxs cmd dat s = encodeRun idxs cmd dat s := if_pos h

theorem execEncode_of_not_wf {idxs cmd dat : List Byte} {s : State} (h : (Instr.encode idxs cmd dat).wf s.cfg = false) :
    execEncode idxs cmd dat s = .refused .operandTooLong := by
  unfold execEncode; simp [h]

/-- Everything ENCODE can do: refuse its operands, overflow, find no number, refuse a class C index, or build the frame. -/
theorem execEncode_cases (idxs cmd dat : List Byte) (s : State) :
    let len := 1 + cmd.length + dat.length
    let s1 : State := { s with regs := { s.regs with len := len } }
    let s2 : State := { s with regs := { s.regs with len := len, tot := len + 9 }, out := encodeHead len }
    ((Instr.encode idxs cmd dat).wf s.cfg = false ∧ execEncode idxs cmd dat s = .refused .operandTooLong) ∨
    ((Instr.encode idxs cmd dat).wf s.cfg = true ∧ 999 < len ∧
      execEncode idxs cmd dat s = .next (s1.raise .lengthOverflow none)) ∨
    ((Instr.encode idxs cmd dat).wf s.cfg = true ∧ len ≤ 999 ∧ idxParse s.cfg.idxIntMax idxs = .nonNumeric ∧
      execEncode idxs cmd dat s = .next (s2.raise .formatError none)) ∨
    ((Instr.encode idxs cmd dat).wf s.cfg = true ∧ len ≤ 999 ∧ idxParse s.cfg.idxIntMax idxs = .mixed ∧
      execEncode idxs cmd dat s = .refused .indexMixed) ∨
    ((Instr.encode idxs cmd dat).wf s.cfg = true ∧ len ≤ 999 ∧ idxParse s.cfg.idxIntMax idxs = .tooLarge ∧
      execEncode idxs cmd dat s = .refused .indexTooLarge) ∨
    (∃ v, (Instr.encode idxs cmd dat).wf s.cfg = true ∧ len ≤ 999 ∧ idxParse s.cfg.idxIntMax idxs = .value v ∧
      execEncode idxs cmd dat s = .next (encodeRest v cmd dat s2)) := by
  intro len s1 s2
  by_cases hw : (Instr.encode idxs cmd dat).wf s.cfg = true
  · right
    rw [execEncode_of_wf hw]
    by_cases hl : 999 < 1 + cmd.length + dat.length
    · exact .inl ⟨hw, hl, encodeRun_of_overflow hl⟩
    · right
      have hl' : len ≤ 999 := by simp only [len]; omega
      rw [encodeRun_of_le hl]
      cases hp : idxParse s.cfg.idxIntMax idxs with
      | nonNumeric => exact .inl ⟨hw, hl', rfl, rfl⟩
      | mixed => exact .inr (.inl ⟨hw, hl', rfl, rfl⟩)
      | tooLarge => exact .inr (.inr (.inl ⟨hw, hl', rfl, rfl⟩))
      | value v => exact .inr (.inr (.inr ⟨v, hw, hl', rfl, rfl⟩))
  · rw [Bool.not_eq_true] at hw
    exact .inl ⟨hw, execEncode_of_not_wf hw⟩

end Sys2Proof.Machine
end

