-- ==== Sys2Proof/Laws/PerInstr.lean ====
section
/-! SUPPORT. Laws/PerInstr.lean: per operation, the call `encode` writes for it decodes back to it, with every operand. -/

namespace Sys2Proof.Laws.EncodeDecode

/-- The call of an operation decodes to the operation. -/
def Statement (i : Instr) : Prop := decode (encode i).op (encode i).operands = i

theorem crcUpdate (state : Half) (byteValue : Byte) : Statement (.crcUpdate state byteValue) := rfl
theorem encode (idxs cmd dat : List Byte) : Statement (.encode idxs cmd dat) := rfl
theorem decode (frm : List Byte) : Statement (.decode frm) := rfl
theorem scan (buf : List Byte) : Statement (.scan buf) := rfl

end Sys2Proof.Laws.EncodeDecode
end

