-- ==== Sys2Proof/Laws/Scanner.lean ====
section
/-! SUPPORT. Laws/Scanner.lean: everything one pass of the scanner can do, said once, and how the loop goes on. -/

namespace Sys2Proof.Machine

/-- A length field inside a slice is the one of the buffer at the slice's start. -/
theorem hasLength_slice {B : List Byte} {p L n : Nat} (hn : 4 ≤ n) :
    HasLength (slice B p n) 0 L ↔ HasLength B p L := by
  have h : ∀ k, k < 4 → (slice B p n)[k]? = B[p + k]? := by
    intro k hk
    rw [slice, List.getElem?_take_of_lt (by omega), List.getElem?_drop]
  unfold HasLength
  rw [h (0 + 1) (by omega), h (0 + 2) (by omega), h (0 + 3) (by omega)]

/-- Everything one pass can do at a cursor inside the buffer (43_scanner R151, R153). The inner DECODE never fails
(R154). -/
theorem scanPass_cases {B : List Byte} {r : Regs} (hc : r.cur < B.length) :
    (∃ b, B[r.cur]? = some b ∧ b ≠ 0x02#8 ∧ scanPass B r = ({ r with cur := r.cur + 1 }, .ok none)) ∨
    (B[r.cur]? = some 0x02#8 ∧ B.length < r.cur + 4 ∧ scanPass B r = (r, .error .truncatedFrame)) ∨
    (B[r.cur]? = some 0x02#8 ∧ r.cur + 4 ≤ B.length ∧ (∀ L, ¬ HasLength B r.cur L) ∧
      scanPass B r = (r, .error .malformedLength)) ∨
    (∃ L, B[r.cur]? = some 0x02#8 ∧ HasLength B r.cur L ∧ B.length < r.cur + L + 9 ∧
      scanPass B r = ({ r with len := L, tot := L + 9 }, .error .truncatedFrame)) ∨
    (∃ L i w c, B[r.cur]? = some 0x02#8 ∧ HasLength B r.cur L ∧ r.cur + L + 9 ≤ B.length ∧
      scanPass B r =
        ({ r with len := L, tot := L + 9, idx := i, w := w, crc := c, cur := r.cur + L + 1 },
          .ok (some (frameRecord (slice B r.cur (L + 9)) L)))) := by
  have hb : B[r.cur]? = some B[r.cur] := List.getElem?_eq_getElem hc
  by_cases hs : B[r.cur] = 0x02#8
  · right
    rw [hs] at hb
    have hrun : scanPass B r = match memRead B (r.cur + 1) 3 with
        | none => (r, .error .truncatedFrame)
        | some d =>
          match lenParse d with
          | none => (r, .error .malformedLength)
          | some len =>
            let r := { r with len := len, tot := len + overhead }
            if B.length < r.cur + r.tot then (r, .error .truncatedFrame)
            else
              match decodeRun r (slice B r.cur r.tot) with
              | (inner, .ok rec) => (scanAdvance r inner, .ok (some rec))
              | (inner, .error e) => (inner, .error e) := by
      unfold scanPass memReadByte
      rw [hb]
      exact if_neg (by decide)
    rw [hrun]
    cases h1 : memRead B (r.cur + 1) 3 with
    | none => exact .inl ⟨hb, by have := (memRead_eq_none_iff B (r.cur + 1) 3).1 h1; omega, rfl⟩
    | some d =>
      obtain ⟨h4, rfl⟩ := (memRead_eq_some_iff B (r.cur + 1) 3 d).1 h1
      have h4' : r.cur + 4 ≤ B.length := by omega
      right
      cases h2 : lenParse (slice B (r.cur + 1) 3) with
      | none =>
        refine .inl ⟨hb, h4', fun L hL => ?_, by simp only [h2]⟩
        rw [(lenParse_slice_iff h4' L).2 hL] at h2
        cases h2
      | some L =>
        have hL : HasLength B r.cur L := (lenParse_slice_iff h4' L).1 h2
        right
        simp only [h2, overhead]
        by_cases ho : B.length < r.cur + (L + 9)
        · exact .inl ⟨L, hb, hL, by omega, if_pos ho⟩
        · right
          have hlen : (slice B r.cur (L + 9)).length = L + 9 := slice_length_of_le (by omega)
          have hL' : HasLength (slice B r.cur (L + 9)) 0 L := (hasLength_slice (by omega)).2 hL
          rcases decodeRun_cases { r with len := L, tot := L + 9 } (slice B r.cur (L + 9)) with
            ⟨h, -⟩ | ⟨-, h, -⟩ | ⟨M, -, h, -⟩ | ⟨M, i, hM, -, h, -⟩ | ⟨M, i, w, hM, -, -, -, h⟩
          · omega
          · exact absurd hL' (h L)
          · omega
          · have := hM.unique hL'
            omega
          · obtain rfl := hM.unique hL'
            refine ⟨M, i, w,
              crcFold (((slice B r.cur (M + 9)).drop 1).take ((slice B r.cur (M + 9)).length - 5)), hb, hL, by omega, ?_⟩
            refine (if_neg ho).trans ?_
            rw [h]
            rfl
  · left
    refine ⟨_, hb, hs, ?_⟩
    unfold scanPass memReadByte
    rw [hb]
    exact if_pos hs

/-- The loop at a cursor past the end stops. -/
theorem scanLoop_stop {k : Nat} {B : List Byte} {r : Regs} {res : List Record} (h : r.n ≤ r.cur) :
    scanLoop k B r res = (r, res, .ok) := by
  cases k with
  | zero => rfl
  | succ k => exact if_neg (by omega)

/-- The loop at a cursor inside goes on with what the pass left. -/
theorem scanLoop_pass {k : Nat} {B : List Byte} {r : Regs} {res : List Record} (h : r.cur < r.n) :
    scanLoop (k + 1) B r res =
      match scanPass B r with
      | (r, .error e) => (r, res, .error e)
      | (r, .ok none) => scanLoop k B r res
      | (r, .ok (some rec)) => scanLoop k B r (res ++ [rec]) := by
  exact if_pos h

end Sys2Proof.Machine
end

