-- ==== Sys2Proof/Laws/Step.lean ====
section
/-! SUPPORT. Laws/Step.lean: everything a step can do, said once. -/

namespace Sys2Proof.Machine

/-- A step that answers a next state stays idle, ran the operation of a call, or took a reset. -/
theorem step_cases {s t : State} (h : step s = .next t) :
    (s.inputs = [] ∧ t = s) ∨
    (∃ r rest, s.inputs = .call r :: rest ∧
      exec (decode r.op r.operands) (({ s with inputs := rest } : State).load r) = .next t) ∨
    (∃ p rest, s.inputs = .reset p :: rest ∧ t = ({ s with inputs := rest } : State).abandon p) := by
  unfold step at h
  split at h
  · rename_i hi
    injection h with h
    exact .inl ⟨hi, h.symm⟩
  · rename_i r rest hi
    exact .inr (.inl ⟨r, rest, hi, h⟩)
  · rename_i p rest hi
    injection h with h
    exact .inr (.inr ⟨p, rest, hi, h.symm⟩)

/-- What an abandoned operation leaves of the state: as after the reset event, but for the caller's ports. -/
theorem State.abandon_cases (s : State) (p : Option Request) :
    s.abandon p = s.resetEvent ∨ ∃ r, p = some r ∧ s.abandon p = (s.load r).resetEvent := by
  cases p with
  | none => exact .inl rfl
  | some r => exact .inr ⟨r, rfl, rfl⟩

end Sys2Proof.Machine
end

