-- ==== Sys2Proof/Tests/Slice0.lean ====
section
/-! SUPPORT. Tests/Slice0.lean: the model's own tests. Expected results are the vectors of 95_test_vectors.md, named in the
comments; the witnesses show that the hypotheses of each statement can be met together. -/

namespace Sys2Proof.Tests

open Sys2Proof.Machine

/-! ## Helpers -/

/-- Status and result of an operation that answers a next state. -/
def endOf (o : Host.Outcome State Fault Refusal) : Option (Status × Option Result) :=
  match o with
  | .next t => some (t.status, t.result)
  | .fault _ => none
  | .refused _ => none

/-- The frame and tag of an ENCODE that succeeded. -/
def frameOf (o : Host.Outcome State Fault Refusal) : Option (List Byte × Tag) :=
  match endOf o with
  | some (.ok, some (.frame out tag)) => some (out, tag)
  | _ => none

/-- The reason of a refusal. -/
def refusalOf (o : Host.Outcome State Fault Refusal) : Option Refusal :=
  match o with
  | .refused r => some r
  | .next _ => none
  | .fault _ => none

/-- The state after one call from reset. -/
def afterCall (r : Request) : Option (Status × Option Result) :=
  endOf (step { State.reset with inputs := [.call r] })

def bytes (l : List Nat) : List Byte := l.map (BitVec.ofNat 8)

/-- Vectors EV1, EV2, EV9, EV10, EV18. -/
def ev1 : List Byte := bytes [0x02, 0x30, 0x30, 0x35, 0x20, 0x31, 0x30, 0x37, 0x31, 0x03, 0x34, 0x30, 0x39, 0x31]
def ev2 : List Byte := bytes [0x02, 0x30, 0x30, 0x35, 0x0b, 0x31, 0x30, 0x37, 0x31, 0x03, 0x66, 0x64, 0x37, 0x20]
def ev9 : List Byte := bytes [0x02, 0x30, 0x30, 0x35, 0x01, 0x31, 0x30, 0x37, 0x02, 0x03, 0x64, 0x33, 0x34, 0x61]
def ev18 : List Byte := bytes [0x02, 0x30, 0x30, 0x31, 0x02, 0x03, 0x31, 0x33, 0x30, 0x34]

/-- Command "107" of the vectors. -/
def cmd107 : List Byte := bytes [0x31, 0x30, 0x37]

/-- Records DV1, DV2. -/
def dv1 : Record :=
  { length := 5, command := cmd107, data := bytes [0x31], checksum := bytes [0x34, 0x30, 0x39, 0x31, 0x20],
    incoming := bytes [0x34, 0x30, 0x39, 0x31] }
def dv2 : Record :=
  { length := 5, command := cmd107, data := bytes [0x31], checksum := bytes [0x66, 0x64, 0x37, 0x20],
    incoming := bytes [0x66, 0x64, 0x37, 0x20] }

/-- A state with capacities 2 and 3 and an index limit of 256. -/
def tight : State := { State.reset with cfg := { idxIntMax := some 256, opndMax := some 2, bufMax := some 3 } }

/-! ## Well-formedness: an ill-formed term for each check -/

theorem test_wf_refuses_small_index_limit : Config.wf { idxIntMax := some 255, opndMax := none, bufMax := none } = false := by
  decide
theorem test_wf_refuses_long_index : (Instr.encode (bytes [1, 2, 3]) [] []).wf tight.cfg = false := by decide
theorem test_wf_refuses_long_command : (Instr.encode [] (bytes [1, 2, 3]) []).wf tight.cfg = false := by decide
theorem test_wf_refuses_long_data : (Instr.encode [] [] (bytes [1, 2, 3])).wf tight.cfg = false := by decide
theorem test_wf_refuses_long_frame : (Instr.decode (bytes [1, 2, 3, 4])).wf tight.cfg = false := by decide
theorem test_wf_refuses_long_buffer : (Instr.scan (bytes [1, 2, 3, 4])).wf tight.cfg = false := by decide
theorem test_wf_accepts_at_the_limits :
    tight.cfg.wf = true ∧ (Instr.encode (bytes [1, 2]) (bytes [1, 2]) (bytes [1, 2])).wf tight.cfg = true ∧
      (Instr.decode (bytes [1, 2, 3])).wf tight.cfg = true ∧ (Instr.scan (bytes [1, 2, 3])).wf tight.cfg = true := by
  decide

/-! ## Decoding: the words of 30_encoding R72 written out, OP bits 1:0 -/

theorem test_decode_crcUpdate : decodeTableWord 8 0b00 = some (.crcUpdate 0 0) := by decide
theorem test_decode_encode : decodeTableWord 8 0b01 = some (.encode [] [] []) := by decide
theorem test_decode_decode : decodeTableWord 8 0b10 = some (.decode []) := by decide
theorem test_decode_scan : decodeTableWord 8 0b11 = some (.scan []) := by decide
theorem test_decode_reads_its_own_ports :
    let p : Operands := { state := 0x1234, byteValue := 0x56, idxs := [1], cmd := [2], dat := [3], frm := [4], buf := [5] }
    decode 0b00 p = .crcUpdate 0x1234 0x56 ∧ decode 0b01 p = .encode [1] [2] [3] ∧ decode 0b10 p = .decode [4] ∧
      decode 0b11 p = .scan [5] := by decide
theorem test_every_table_word_runs_from_reset :
    (endOf (step (State.reset.withFetchWord 8 0)), endOf (step (State.reset.withFetchWord 8 1)),
      endOf (step (State.reset.withFetchWord 8 2)), endOf (step (State.reset.withFetchWord 8 3))) =
    (some (.ok, some (.newState 0)), some (.error .formatError, none), some (.error .truncatedFrame, none),
      some (.ok, some (.records []))) := by decide

/-! ## The operations -/

/-- CU4, CU8. -/
theorem test_crcUpdate_vectors :
    afterCall (encode (.crcUpdate 0x3030 0x35)) = some (.ok, some (.newState 0x04b3)) ∧
      afterCall (encode (.crcUpdate 0xffff 0xff)) = some (.ok, some (.newState 0xf087)) := by decide +kernel

/-- CF6, CF7: "123456789", and with the two zero bytes the published KERMIT value. -/
theorem test_crcFold_vectors :
    crcFold (bytes [0x31, 0x32, 0x33, 0x34, 0x35, 0x36, 0x37, 0x38, 0x39]) = 0x507f ∧
      crcFold (bytes [0x31, 0x32, 0x33, 0x34, 0x35, 0x36, 0x37, 0x38, 0x39, 0, 0]) = 0x2189 := by decide +kernel

/-- EV1, EV2, EV7, EV8, EV9, EV18, EV20, EV6 (index 300), and EV3 but for its free last byte. -/
theorem test_encode_frames :
    let run := fun idxs cmd dat => frameOf (exec (.encode idxs cmd dat) State.reset)
    run (bytes [0x33, 0x32]) cmd107 [0x31] = some (ev1, .truncated) ∧
    run (bytes [0x31, 0x31]) cmd107 [0x31] = some (ev2, .fits) ∧
    run (bytes [0x32, 0x35, 0x35]) [] [] =
      some (bytes [0x02, 0x30, 0x30, 0x31, 0xff, 0x03, 0x31, 0x33, 0x66, 0x39], .truncated) ∧
    run [0x37] (bytes [0x41, 0x42]) (bytes [0x78, 0x79, 0x7a]) =
      some (bytes [0x02, 0x30, 0x30, 0x36, 0x07, 0x41, 0x42, 0x78, 0x79, 0x7a, 0x03, 0x62, 0x65, 0x63, 0x65], .truncated) ∧
    run [0x31] cmd107 [0x02] = some (ev9, .truncated) ∧
    run [0x32] [] [] = some (ev18, .truncated) ∧
    run [0x31] cmd107 (bytes [0x80, 0xff]) =
      some (bytes [0x02, 0x30, 0x30, 0x36, 0x01, 0x31, 0x30, 0x37, 0x80, 0xff, 0x03, 0x34, 0x35, 0x31, 0x36], .truncated) ∧
    run (bytes [0x33, 0x30, 0x30]) cmd107 [] =
      some (bytes [0x02, 0x30, 0x30, 0x34, 0x2c, 0x31, 0x30, 0x37, 0x03, 0x31, 0x36, 0x34, 0x39], .truncated) ∧
    (run (bytes [0x39, 0x38]) cmd107 []).map (fun x => (x.1.take 12, x.1.length, x.2)) =
      some (bytes [0x02, 0x30, 0x30, 0x34, 0x62, 0x31, 0x30, 0x37, 0x03, 0x32, 0x34, 0x20], 13, .short) := by
  decide +kernel

/-- EV13, EV14, EV15, EV16, EV17, EV22 (996 data bytes: LEN = 1000), and an index above `IDX_INT_MAX`. -/
theorem test_encode_errors_and_refusals :
    let long := List.replicate 996 0x41#8
    endOf (exec (.encode (bytes [0x61, 0x62, 0x63]) cmd107 [0x31]) State.reset) = some (.error .formatError, none) ∧
    endOf (exec (.encode [] cmd107 [0x31]) State.reset) = some (.error .formatError, none) ∧
    endOf (exec (.encode [0x35] cmd107 long) State.reset) = some (.error .lengthOverflow, none) ∧
    endOf (exec (.encode (bytes [0x61, 0x62, 0x63]) cmd107 long) State.reset) = some (.error .lengthOverflow, none) ∧
    refusalOf (exec (.encode (bytes [0x2d, 0x31]) cmd107 [0x31]) State.reset) = some .indexMixed ∧
    endOf (exec (.encode (bytes [0x2d, 0x31]) cmd107 long) State.reset) = some (.error .lengthOverflow, none) ∧
    refusalOf (exec (.encode (bytes [0x32, 0x35, 0x37]) [] [])
      { State.reset with cfg := { resetConfig with idxIntMax := some 256 } }) = some .indexTooLarge := by decide +kernel

/-- DV1, DV2, DV15, DV17, DV20, DV23. -/
theorem test_decode_records :
    let run := fun F => endOf (exec (.decode F) State.reset)
    run ev1 = some (.ok, some (.record dv1)) ∧
    run ev2 = some (.ok, some (.record dv2)) ∧
    run (bytes [0x02, 0x30, 0x30, 0x34, 0x20, 0x31, 0x30, 0x37]) = some (.ok, some (.record
      { length := 4, command := cmd107, data := [], checksum := bytes [0x35, 0x62, 0x33, 0x20],
        incoming := bytes [0x20, 0x31, 0x30, 0x37] })) ∧
    run (ev1.take 13) = some (.ok, some (.record
      { length := 5, command := cmd107, data := [0x31], checksum := bytes [0x39, 0x64, 0x35, 0x31, 0x20],
        incoming := bytes [0x03, 0x34, 0x30, 0x39] })) ∧
    run (bytes [0xff, 0x30, 0x30, 0x35, 0x20, 0x31, 0x30, 0x37, 0x31, 0xff, 0x34, 0x30, 0x39, 0x31]) = some (.ok, some (.record
      { length := 5, command := cmd107, data := [0x31], checksum := bytes [0x62, 0x63, 0x39, 0x31, 0x20],
        incoming := bytes [0x34, 0x30, 0x39, 0x31] })) ∧
    run (bytes [0x02, 0x30, 0x30, 0x30, 0x03, 0x30, 0x30, 0x30, 0x30]) = some (.ok, some (.record
      { length := 0, command := bytes [0x30, 0x30, 0x30], data := [], checksum := bytes [0x38, 0x34, 0x31, 0x31, 0x20],
        incoming := bytes [0x30, 0x30, 0x30, 0x30] })) := by decide +kernel

/-- DV8, DV9, DV10, DV11, DV12, DV13, DV14, DV26, DV27, DV28. -/
theorem test_decode_errors :
    let run := fun l => endOf (exec (.decode (bytes l)) State.reset)
    run [0x02, 0x61, 0x62, 0x63, 0x20, 0x31, 0x30, 0x37, 0x31, 0x03, 0x34, 0x30, 0x39, 0x31] = some (.error .malformedLength, none) ∧
    run [0x02, 0x30, 0x30] = some (.error .truncatedFrame, none) ∧
    run [0x02, 0x61, 0x62] = some (.error .truncatedFrame, none) ∧
    run [0x02, 0x61, 0x62, 0x63] = some (.error .malformedLength, none) ∧
    run [0x02, 0x30, 0x30, 0x35] = some (.error .truncatedFrame, none) ∧
    run [0x02, 0x30, 0x30, 0x35, 0x20, 0x31, 0x30] = some (.error .truncatedFrame, none) ∧
    run [0x02, 0x30, 0x30, 0x35, 0x20, 0x31, 0x30, 0x37] = some (.error .truncatedFrame, none) ∧
    run [0x02, 0x30, 0x30, 0x3a, 0x20, 0x31, 0x30, 0x37, 0x31] = some (.error .malformedLength, none) ∧
    run [0x02, 0x30, 0x2f, 0x35, 0x20, 0x31, 0x30, 0x37, 0x31] = some (.error .malformedLength, none) ∧
    run [] = some (.error .truncatedFrame, none) := by decide +kernel

/-- SV1, SV2, SV4, SV5, SV15. -/
theorem test_scan_records :
    let run := fun B => endOf (exec (.scan B) State.reset)
    run [] = some (.ok, some (.records [])) ∧
    run (bytes [0x00, 0x41, 0x03]) = some (.ok, some (.records [])) ∧
    run (ev1 ++ ev2) = some (.ok, some (.records [dv1, dv2])) ∧
    run (bytes [0xaa, 0xbb] ++ ev1 ++ [0x00] ++ ev2 ++ bytes [0x0d, 0x0a]) = some (.ok, some (.records [dv1, dv2])) ∧
    run (bytes [0x02, 0x30, 0x30, 0x30, 0x02, 0x30, 0x30, 0x30, 0x03, 0x30, 0x30, 0x30, 0x30, 0x31, 0x32, 0x33, 0x34]) =
      some (.ok, some (.records
        [{ length := 0, command := bytes [0x30, 0x30, 0x30], data := [], checksum := bytes [0x38, 0x35, 0x31, 0x31, 0x20],
           incoming := bytes [0x30, 0x30, 0x30, 0x03] },
         { length := 0, command := bytes [0x30, 0x30, 0x30], data := [], checksum := bytes [0x38, 0x34, 0x31, 0x31, 0x20],
           incoming := bytes [0x30, 0x30, 0x30, 0x30] }])) := by decide +kernel

/-- SV6 and SV7 with the final cursor 14, SV9 with 8, SV18 with 0. -/
theorem test_scan_errors :
    let run := fun B => match exec (.scan B) State.reset with
      | .next t => some (t.status, t.result, t.regs.cur)
      | .fault _ => none
      | .refused _ => none
    run (ev1 ++ ev2.take 10) = some (.error .truncatedFrame, some (.records [dv1]), 14) ∧
    run (ev1 ++ bytes [0x02, 0x30, 0x30]) = some (.error .truncatedFrame, some (.records [dv1]), 14) ∧
    run (ev9 ++ ev1) = some (.error .malformedLength, some (.records
      [{ length := 5, command := cmd107, data := [0x02], checksum := bytes [0x64, 0x33, 0x34, 0x61, 0x20],
         incoming := bytes [0x64, 0x33, 0x34, 0x61] }]), 8) ∧
    run (bytes [0x02, 0x61, 0x62, 0x63] ++ ev1) = some (.error .malformedLength, some (.records []), 0) := by decide +kernel

/-! ## Witnesses: the hypotheses of each statement met together -/

theorem hasLength_ev1 : HasLength ev1 0 5 := ⟨0x30, 0x30, 0x35, rfl, rfl, rfl, by decide, by decide, by decide, rfl⟩

theorem delivers_of_endOf {o : Host.Outcome State Fault Refusal} {st : Status} {r : Option Result}
    (h : endOf o = some (st, r)) : Delivers o st r := by
  cases o with
  | next t => cases h; exact ⟨t, rfl, rfl, rfl⟩
  | fault _ => cases h
  | refused _ => cases h

theorem delivers_of_frameOf {o : Host.Outcome State Fault Refusal} {out : List Byte} {tag : Tag}
    (h : frameOf o = some (out, tag)) : Delivers o .ok (some (.frame out tag)) := by
  apply delivers_of_endOf
  unfold frameOf at h
  split at h
  · rename_i he
    cases h; exact he
  · cases h

theorem built_ev1 : BuiltByEncode ev1 :=
  ⟨bytes [0x33, 0x32], cmd107, [0x31], State.reset, .truncated, ev1, delivers_of_frameOf (by decide +kernel), .inl rfl⟩

theorem built_ev9 : BuiltByEncode ev9 :=
  ⟨[0x31], cmd107, [0x02], State.reset, .truncated, ev9, delivers_of_frameOf (by decide +kernel), .inl rfl⟩

/-- EV3 with the draw 0x02. -/
def ev3pad2 : List Byte := bytes [0x02, 0x30, 0x30, 0x34, 0x62, 0x31, 0x30, 0x37, 0x03, 0x32, 0x34, 0x20, 0x02]

theorem ev3_but_last :
    (frameOf (exec (.encode (bytes [0x39, 0x38]) cmd107 []) State.reset)).map (fun x => (x.1.dropLast, x.2)) =
      some (ev3pad2.take 12, .short) := by decide +kernel

theorem encodesTo_ev3pad2 : EncodesTo (bytes [0x39, 0x38]) cmd107 [] State.reset ev3pad2 .short := by
  obtain ⟨⟨out, tag⟩, h, he⟩ := Option.map_eq_some_iff.1 ev3_but_last
  simp only [Prod.mk.injEq] at he
  obtain ⟨ho, rfl⟩ := he
  exact ⟨out, delivers_of_frameOf h, .inr ⟨rfl, 0x02, by rw [ho]; rfl⟩⟩

theorem built_ev3pad2 : BuiltByEncode ev3pad2 := ⟨_, _, _, _, _, encodesTo_ev3pad2⟩

theorem unclean_ev3pad2 : ¬ CleanTail ev3pad2 := fun h => h.2 rfl

theorem classA_255 : ClassA State.reset.cfg.idxIntMax (bytes [0x32, 0x35, 0x35]) 255 :=
  ⟨by decide, by decide, by decide, fun m h => by cases h; decide⟩

theorem clean_ev1 : CleanTail ev1 := by
  refine ⟨fun k h1 h2 => ?_, by decide⟩
  have h1' : 6 ≤ k := h1
  have h2' : k ≤ 8 := h2
  interval_cases k <;> decide

theorem unclean_ev9 : ¬ CleanTail ev9 := fun h => h.1 8 (by decide) (by decide) rfl

theorem test_witness_ResetLeavesBlockIdle : State.reset.inputs = [] := rfl

theorem test_witness_StepRunsTheCalledOperation :
    ∃ (s : State) (r : Request) (rest : List Input), s.inputs = .call r :: rest :=
  ⟨{ State.reset with inputs := [.call { op := 3, operands := { Operands.zero with buf := ev1 } }] }, _, _, rfl⟩

theorem test_witness_EncodedCallRunsItsOperation :
    ∃ (s : State) (i : Instr) (rest : List Input), s.inputs = .call (encode i) :: rest :=
  ⟨{ State.reset with inputs := [.call (encode (.decode ev1))] }, .decode ev1, [], rfl⟩

theorem test_witness_ResetEventDeliversNothing :
    (∃ (s : State) (rest : List Input), s.inputs = .reset none :: rest) ∧
      ∃ (s : State) (r : Request) (rest : List Input), s.inputs = .reset (some r) :: rest :=
  ⟨⟨{ State.reset with inputs := [.reset none] }, [], rfl⟩,
    ⟨{ State.reset with inputs := [.reset (some (encode (.scan ev1)))] }, encode (.scan ev1), [], rfl⟩⟩

/-- Two states that differ in every register and result, and operations that answer and that are refused in both. -/
theorem test_witness_ResultDependsOnOperandsOnly :
    let s' : State := { State.reset with
      regs := { Regs.reset with w := 7, crc := 7, len := 7, cur := 7 }, result := some (.newState 7) }
    s'.cfg = State.reset.cfg ∧ s'.draws = State.reset.draws ∧ (∃ t, exec (.scan ev1) State.reset = .next t) ∧
      exec (.encode (bytes [0x2d, 0x31]) [] []) State.reset = .refused .indexMixed :=
  ⟨rfl, rfl, ⟨_, rfl⟩, rfl⟩

/-- Each operation answers a next state somewhere: OperationsLeaveTheCallersSideAlone, EachOperationWritesItsOwnRegisters,
StatusValuesOfEachOperation. -/
theorem test_witness_each_operation_answers :
    (∃ t, exec (.crcUpdate 0xffff 0xff) State.reset = .next t) ∧
    (∃ t, exec (.encode (bytes [0x32, 0x35, 0x35]) cmd107 []) State.reset = .next t) ∧
    (∃ t, exec (.decode ev1) State.reset = .next t) ∧ ∃ t, exec (.scan ev1) State.reset = .next t :=
  ⟨⟨_, rfl⟩, ⟨_, rfl⟩, ⟨_, rfl⟩, ⟨_, rfl⟩⟩

/-- An ENCODE, a DECODE and a SCAN that end with an error. -/
theorem test_witness_ErrorsDeliverNothingButScannedRecords :
    (∃ t, exec (.encode [] [] []) State.reset = .next t ∧ t.status = .error .formatError) ∧
    (∃ t, exec (.decode []) State.reset = .next t ∧ t.status = .error .truncatedFrame) ∧
    ∃ t, exec (.scan [0x02]) State.reset = .next t ∧ t.status = .error .truncatedFrame :=
  ⟨⟨_, rfl, rfl⟩, ⟨_, rfl, rfl⟩, ⟨_, rfl, rfl⟩⟩

theorem test_witness_OperandsOverCapacityAreRefused : (Instr.scan (bytes [1, 2, 3, 4])).wf tight.cfg = false := by decide

/-- A state with the invariant that a call moves on. -/
theorem test_witness_EveryStepKeepsTheInvariant :
    ∃ s t : State, s.Inv ∧ s.inputs ≠ [] ∧ step s = .next t := by
  refine ⟨{ State.reset with inputs := [.call (encode (.decode ev1))] }, _, ?_, by simp, rfl⟩
  refine ⟨rfl, Memory.fresh_wf 0, Nat.zero_le _, ⟨Nat.zero_le _, fun _ _ => Nat.zero_le _, nofun, nofun⟩, trivial⟩

theorem test_witness_OneByteChangeChangesTheChecksum : (0x00 : Byte) ≠ 0xff := by decide

/-- Every case at both ends of its range. -/
theorem test_witness_ChecksumTextTagAndField :
    (0x0000 : Half).toNat ≤ 0x00FF ∧ (0x00FF : Half).toNat ≤ 0x00FF ∧ 0x0100 ≤ (0x0100 : Half).toNat ∧
      (0x0FFF : Half).toNat ≤ 0x0FFF ∧ 0x1000 ≤ (0x1000 : Half).toNat ∧ 0x1000 ≤ (0xFFFF : Half).toNat := by decide

theorem test_witness_ChecksumTextIsInjective :
    ckText 0x0ABC = ckText 0x0ABC ∧ ckField 0x4091 0x00 = ckField 0x4091 0xff := by decide

theorem test_witness_LengthFieldParsesBack :
    lenParse (bytes [0x39, 0x39, 0x39]) = some 999 ∧ lenParse (bytes [0x30, 0x30, 0x30]) = some 0 := by decide

theorem test_witness_ChecksumIsOneUpdatePerByte : ev1[13]? = some 0x31 := rfl

theorem test_witness_BufferReadsAreBoundsChecked :
    10 + 4 ≤ ev1.length ∧ ev1.length < 11 + 4 ∧ ev1.length ≤ 14 := by decide

/-- EncodeBuildsTheFrame and EncodeWrapsTheIndexToOneByte: a class A index, at LEN = 1 and at LEN = 999. -/
theorem test_witness_EncodeBuildsTheFrame :
    ClassA State.reset.cfg.idxIntMax (bytes [0x32, 0x35, 0x35]) 255 ∧
    (Instr.encode (bytes [0x32, 0x35, 0x35]) [] []).wf State.reset.cfg = true ∧ 1 + 0 + 0 ≤ 999 ∧
    (Instr.encode (bytes [0x32, 0x35, 0x35]) cmd107 (List.replicate 995 0x41)).wf State.reset.cfg = true ∧
    1 + cmd107.length + (List.replicate 995 (0x41 : Byte)).length ≤ 999 :=
  ⟨classA_255, rfl, by decide, rfl, by rw [List.length_replicate]; decide⟩

theorem test_witness_EncodeRejectsLengthOverflow :
    (Instr.encode [] cmd107 (List.replicate 996 0x41)).wf State.reset.cfg = true ∧
    999 < 1 + cmd107.length + (List.replicate 996 (0x41 : Byte)).length ∧
    ∃ t, exec (.encode [] [] []) State.reset = .next t :=
  ⟨rfl, by rw [List.length_replicate]; decide, ⟨_, rfl⟩⟩

theorem test_witness_EncodeRaisesFormatError :
    ClassB (bytes [0x61, 0x2f, 0x3a]) ∧ (Instr.encode (bytes [0x61, 0x2f, 0x3a]) [] []).wf State.reset.cfg = true ∧
    ∃ t, exec (.encode (bytes [0x61, 0x2f, 0x3a]) [] []) State.reset = .next t ∧ t.status = .error .formatError :=
  ⟨by decide, rfl, ⟨_, rfl, rfl⟩⟩

/-- A mixed string, and a digit string one above the limit. -/
theorem test_witness_EncodeAnswersExactlyOutsideClassC :
    ((∃ b ∈ bytes [0x2d, 0x31], IsDigit b) ∧ ∃ b ∈ bytes [0x2d, 0x31], ¬ IsDigit b) ∧
    (Instr.encode (bytes [0x32, 0x35, 0x37]) [] []).wf { resetConfig with idxIntMax := some 256 } = true ∧
    (∀ b ∈ bytes [0x32, 0x35, 0x37], IsDigit b) ∧ 256 < decimalValue (bytes [0x32, 0x35, 0x37]) := by decide

/-- EncodedFrameSize, DecodeInvertsEncode: a frame ENCODE delivers, and one it may deliver with another draw. -/
theorem test_witness_EncodedFrameSize :
    EncodesTo (bytes [0x33, 0x32]) cmd107 [0x31] State.reset ev1 .truncated ∧ (Instr.decode ev1).wf State.reset.cfg = true ∧
      EncodesTo (bytes [0x39, 0x38]) cmd107 [] State.reset ev3pad2 .short ∧
      (Instr.decode ev3pad2).wf State.reset.cfg = true :=
  ⟨⟨ev1, delivers_of_frameOf (by decide +kernel), .inl rfl⟩, rfl, encodesTo_ev3pad2, rfl⟩

/-- The same ENCODE from two states with different draw counts. -/
theorem test_witness_EncodeRepeatsUpToCkPad :
    Delivers (exec (.encode (bytes [0x33, 0x32]) cmd107 [0x31]) State.reset) .ok (some (.frame ev1 .truncated)) ∧
    Delivers (exec (.encode (bytes [0x33, 0x32]) cmd107 [0x31]) { State.reset with draws := 9 }) .ok
      (some (.frame ev1 .truncated)) :=
  ⟨delivers_of_frameOf (by decide +kernel), delivers_of_frameOf (by decide +kernel)⟩

/-- DecodeReturnsTheRecord, also at its shortest operand. -/
theorem test_witness_DecodeReturnsTheRecord :
    (Instr.decode ev1).wf State.reset.cfg = true ∧ 8 ≤ ev1.length ∧ HasLength ev1 0 5 ∧ 5 + 4 ≤ ev1.length ∧
      ev1[4]? = some 0x20 ∧ HasLength (bytes [0, 0x30, 0x30, 0x34, 0, 0, 0, 0]) 0 4 :=
  ⟨rfl, by decide, hasLength_ev1, by decide, rfl,
    ⟨0x30, 0x30, 0x34, rfl, rfl, rfl, by decide, by decide, by decide, rfl⟩⟩

/-- The four error cases of R132, each at its boundary. -/
theorem test_witness_DecodeReportsTheFirstFailedCheck :
    (bytes [0x02, 0x30, 0x30]).length < 4 ∧
    (4 ≤ (bytes [0x02, 0x61, 0x62, 0x63]).length ∧ ∀ L, ¬ HasLength (bytes [0x02, 0x61, 0x62, 0x63]) 0 L) ∧
    HasLength (ev1.take 7) 0 5 ∧ (ev1.take 7).length < 8 ∧
    HasLength (ev1.take 8) 0 5 ∧ 8 ≤ (ev1.take 8).length ∧ (ev1.take 8).length < 5 + 4 := by
  refine ⟨by decide, ⟨by decide, ?_⟩, ?_, by decide, ?_, by decide, by decide⟩
  · rintro L ⟨a, b, c, h1, -, -, ha, -⟩
    cases h1
    exact absurd ha (by decide)
  · exact ⟨0x30, 0x30, 0x35, rfl, rfl, rfl, by decide, by decide, by decide, rfl⟩
  · exact ⟨0x30, 0x30, 0x35, rfl, rfl, rfl, by decide, by decide, by decide, rfl⟩

theorem test_witness_DecodeSucceedsExactlyWhen : (Instr.decode ev1).wf State.reset.cfg = true := rfl

/-- The frame EV1 without its checksum field, and four other bytes. -/
theorem test_witness_ChecksumMismatchIsNoError :
    (Instr.decode (ev1.take 10 ++ bytes [0, 0, 0, 0])).wf State.reset.cfg = true ∧ (bytes [0, 0, 0, 0]).length = 4 ∧
      8 ≤ (ev1.take 10).length ∧ HasLength (ev1.take 10) 0 5 ∧ 5 + 4 ≤ (ev1.take 10).length :=
  ⟨rfl, rfl, by decide, ⟨0x30, 0x30, 0x35, rfl, rfl, rfl, by decide, by decide, by decide, rfl⟩, by decide⟩

/-- ScanFollowsTheCursorWalk, ScanCursorStaysInTheBuffer. -/
theorem test_witness_ScanFollowsTheCursorWalk :
    (Instr.scan ev1).wf State.reset.cfg = true ∧ ∃ t, exec (.scan ev1) State.reset = .next t := ⟨rfl, ⟨_, rfl⟩⟩

theorem test_witness_ScanWithoutStartMarkerFindsNothing :
    (Instr.scan (bytes [0x00, 0x41, 0x03])).wf State.reset.cfg = true ∧ ∀ b ∈ bytes [0x00, 0x41, 0x03], b ≠ 0x02#8 := by
  decide

theorem test_witness_InnerDecodeCannotFail :
    HasLength ev1 0 5 ∧ 0 + 5 + 9 ≤ ev1.length ∧ (Instr.decode ((ev1.drop 0).take 14)).wf State.reset.cfg = true :=
  ⟨hasLength_ev1, by decide, rfl⟩

theorem test_witness_ScanFindsAllFramesIffTailsAreClean :
    (∀ F ∈ [ev1, ev9], BuiltByEncode F) ∧ (Instr.scan [ev1, ev9].flatten).wf State.reset.cfg = true := by
  refine ⟨fun F hF => ?_, rfl⟩
  simp only [List.mem_cons, List.not_mem_nil, or_false] at hF
  rcases hF with rfl | rfl
  · exact built_ev1
  · exact built_ev9

/-- A clean frame, then one whose content tail holds 0x02, then another; and a clean frame, then a last one whose draw
is 0x02 and whose content tail is free of it. -/
theorem test_witness_ScanStopsAtTheFirstFalseStart :
    ((∀ G ∈ [ev1] ++ ev9 :: [ev1], BuiltByEncode G) ∧ (∀ G ∈ [ev1], CleanTail G) ∧ ¬ CleanTail ev9 ∧
      (Instr.scan ([ev1] ++ ev9 :: [ev1]).flatten).wf State.reset.cfg = true) ∧
    ((∀ G ∈ [ev1] ++ ev3pad2 :: [], BuiltByEncode G) ∧ ¬ CleanTail ev3pad2 ∧
      (Instr.scan ([ev1] ++ ev3pad2 :: []).flatten).wf State.reset.cfg = true ∧
      ∀ k, ev3pad2.length - 8 ≤ k → k ≤ ev3pad2.length - 6 → ev3pad2[k]? ≠ some 0x02#8) := by
  refine ⟨⟨fun G hG => ?_, fun G hG => ?_, unclean_ev9, rfl⟩, fun G hG => ?_, unclean_ev3pad2, rfl, fun k h1 h2 => ?_⟩
  · simp only [List.cons_append, List.nil_append, List.mem_cons, List.not_mem_nil, or_false] at hG
    rcases hG with rfl | rfl | rfl
    · exact built_ev1
    · exact built_ev9
    · exact built_ev1
  · simp only [List.mem_cons, List.not_mem_nil, or_false] at hG
    subst hG
    exact clean_ev1
  · simp only [List.cons_append, List.nil_append, List.mem_cons, List.not_mem_nil, or_false] at hG
    rcases hG with rfl | rfl
    · exact built_ev1
    · exact built_ev3pad2
  · have h1' : 5 ≤ k := h1
    have h2' : k ≤ 7 := h2
    interval_cases k <;> decide

end Sys2Proof.Tests
end

section
/-! Proof of the bounds checks on operand reads (00_scope R10, 20_memory R42). -/

namespace Sys2Proof.Machine

theorem memRead_eq_some_slice {B : List Byte} {off n : Nat} (h : off + n ≤ B.length) :
    memRead B off n = some (slice B off n) :=
  (memRead_eq_some_iff B off n _).2 ⟨h, rfl⟩

theorem slice_getElem?_of_lt (B : List Byte) (off : Nat) {n k : Nat} (h : k < n) :
    (slice B off n)[k]? = B[off + k]? := by
  rw [slice, List.getElem?_take_of_lt h, List.getElem?_drop]

theorem memReadByte_eq_none_iff (B : List Byte) (off : Nat) : memReadByte B off = none ↔ B.length ≤ off :=
  List.getElem?_eq_none_iff

/-- Settles O24: a read inside the operand is its slice, whose length and bytes are known; the other two clauses are the
exact conditions under which `memRead` and `memReadByte` deliver nothing. -/
theorem bufferReadsAreBoundsChecked : Obligations.BufferReadsAreBoundsChecked := by
  refine ⟨fun B off n h => ?inside, fun B off n => ?past, memReadByte_eq_none_iff⟩
  case inside =>
    exact ⟨slice B off n, memRead_eq_some_slice h, slice_length_of_le h, fun _ hk => slice_getElem?_of_lt B off hk⟩
  case past => exact (memRead_eq_none_iff B off n).2

end Sys2Proof.Machine
end

section
/-! How the scanner's cursor moves (43_scanner R151 to R153, R155): what a pass does to it, how the loop goes on after a
pass, and how a scan ends. -/

namespace Sys2Proof.Machine

/-- What a pass at a cursor inside the buffer does to the cursor. It goes on, past the skipped byte or by the length of the
record and one, and stays inside the buffer; or it ends the scan at a start marker. -/
theorem scanPass_cursor {B : List Byte} {r : Regs} (hc : r.cur < B.length) :
    (∃ r' o, scanPass B r = (r', .ok o) ∧ r'.cur = r.cur + o.elim 0 Record.length + 1 ∧ r'.cur ≤ B.length ∧
      r'.n = r.n) ∨
    (∃ r' e, scanPass B r = (r', .error e) ∧ r'.cur = r.cur ∧ B[r.cur]? = some 0x02#8) := by
  rcases scanPass_cases hc with ⟨b, -, -, h⟩ | ⟨hb, -, h⟩ | ⟨hb, -, -, h⟩ | ⟨L, hb, -, -, h⟩ |
    ⟨L, i, w, c, -, -, hfit, h⟩
  case inl => exact .inl ⟨_, _, h, rfl, hc, rfl⟩
  case inr.inl => exact .inr ⟨_, _, h, rfl, hb⟩
  case inr.inr.inl => exact .inr ⟨_, _, h, rfl, hb⟩
  case inr.inr.inr.inl => exact .inr ⟨_, _, h, rfl, hb⟩
  case inr.inr.inr.inr => exact .inl ⟨_, _, h, rfl, by simp only; omega, rfl⟩

section Loop
variable {k : Nat} {B : List Byte} {r r' : Regs} {res : List Record}

/-- After a pass without an error the loop goes on, with the record of the pass if it made one. -/
theorem scanLoop_of_ok {o : Option Record} (hc : r.cur < r.n) (h : scanPass B r = (r', .ok o)) :
    scanLoop (k + 1) B r res = scanLoop k B r' (res ++ o.toList) := by
  rw [scanLoop_pass hc, h]
  cases o with
  | none => simp
  | some rec => rfl

/-- An error of a pass ends the loop with the records so far. -/
theorem scanLoop_of_error {e : CodecError} (hc : r.cur < r.n) (h : scanPass B r = (r', .error e)) :
    scanLoop (k + 1) B r res = (r', res, .error e) := by
  rw [scanLoop_pass hc, h]

end Loop

section End
variable (s : State) (x : Regs × List Record × Status)

@[simp] theorem scanEnd_regs : (scanEnd s x).regs = x.1 := by
  obtain ⟨r, res, _ | e⟩ := x <;> rfl

@[simp] theorem scanEnd_status : (scanEnd s x).status = x.2.2 := by
  obtain ⟨r, res, _ | e⟩ := x <;> rfl

@[simp] theorem scanEnd_result : (scanEnd s x).result = some (.records x.2.1) := by
  obtain ⟨r, res, _ | e⟩ := x <;> rfl

@[simp] theorem scanEnd_draws : (scanEnd s x).draws = s.draws := by
  obtain ⟨r, res, _ | e⟩ := x <;> rfl

end End

theorem execScan_of_wf {B : List Byte} {s : State} (h : (Instr.scan B).wf s.cfg = true) :
    execScan B s = .next (scanEnd s (scanRun s.regs B)) := if_pos h

theorem execScan_of_not_wf {B : List Byte} {s : State} (h : ¬ (Instr.scan B).wf s.cfg = true) :
    execScan B s = .refused .operandTooLong := if_neg h

end Sys2Proof.Machine
end

section
/-! Proof that the cursor never passes the end of the buffer (10_state R23, R24; 43_scanner R153). -/

namespace Sys2Proof.Machine

/-- Where a scan of `B` that ends with status `st` may leave its cursor. -/
def CursorEnd (B : List Byte) (cur : Nat) (st : Status) : Prop :=
  cur ≤ B.length ∧ (st = .ok → cur = B.length) ∧ ∀ e, st = .error e → B[cur]? = some 0x02#8

theorem cursorEnd_length (B : List Byte) : CursorEnd B B.length .ok := ⟨le_rfl, fun _ => rfl, nofun⟩

theorem cursorEnd_at_stx {B : List Byte} {cur : Nat} (hc : cur < B.length) (hb : B[cur]? = some 0x02#8)
    (e : CodecError) : CursorEnd B cur (.error e) := ⟨hc.le, nofun, fun _ _ => hb⟩

/-- The cursor of a loop that starts inside the buffer, with passes enough for the bytes that are left. -/
theorem scanLoop_cursorEnd {k : Nat} {B : List Byte} {r : Regs} (res : List Record) (hn : r.n = B.length)
    (hc : r.cur ≤ B.length) (hk : B.length - r.cur ≤ k) :
    CursorEnd B (scanLoop k B r res).1.cur (scanLoop k B r res).2.2 := by
  induction k generalizing r res with
  | zero =>
    have he : r.cur = B.length := by omega
    simpa [scanLoop, he] using cursorEnd_length B
  | succ k ih =>
    rcases hc.eq_or_lt with he | hlt
    · rw [scanLoop_stop (by omega), he]
      exact cursorEnd_length B
    · have hlt' : r.cur < r.n := by omega
      rcases scanPass_cursor hlt with ⟨r', o, hp, hcur, hle, hn'⟩ | ⟨r', e, hp, hcur, hb⟩
      · rw [scanLoop_of_ok hlt' hp]
        exact ih _ (hn'.trans hn) hle (by omega)
      · rw [scanLoop_of_error hlt' hp, hcur]
        exact cursorEnd_at_stx hlt hb e

theorem scanRun_cursorEnd (r : Regs) (B : List Byte) : CursorEnd B (scanRun r B).1.cur (scanRun r B).2.2 :=
  scanLoop_cursorEnd [] rfl (Nat.zero_le _) (Nat.sub_le _ _)

/-- Settles O39: the loop's passes keep the cursor inside the buffer and end with an error only at a start marker, and
`len(B)` passes are enough to reach the end otherwise. -/
theorem scanCursorStaysInTheBuffer : Obligations.ScanCursorStaysInTheBuffer := by
  intro B s t (h : execScan B s = .next t)
  by_cases hw : (Instr.scan B).wf s.cfg = true
  · rw [execScan_of_wf hw] at h
    injection h with h
    subst h
    simpa [CursorEnd] using scanRun_cursorEnd s.regs B
  · rw [execScan_of_not_wf hw] at h
    cases h

end Sys2Proof.Machine
end

section
/-! Proof that what an operation delivers depends on its operands and the draw alone (10_state R20, 40_checksum R94):
operation by operation, the answer from one state is the answer from the other. -/

namespace Sys2Proof.Machine

/-- What an outcome shows: status, result and draw count of a next state, or why there is none. -/
def answerOf : Host.Outcome State Fault Refusal → Host.Outcome (Status × Option Result × Nat) Fault Refusal
  | .next t => .next (t.status, t.result, t.draws)
  | .fault f => .fault f
  | .refused r => .refused r

@[simp] theorem answerOf_next (t : State) : answerOf (.next t) = .next (t.status, t.result, t.draws) := rfl

@[simp] theorem answerOf_refused (r : Refusal) : answerOf (.refused r) = .refused r := rfl

theorem answerOf_eq_next {o : Host.Outcome State Fault Refusal} {st : Status} {res : Option Result} {d : Nat}
    (h : answerOf o = .next (st, res, d)) : ∃ t, o = .next t ∧ t.status = st ∧ t.result = res ∧ t.draws = d := by
  cases o with
  | next t => cases h; exact ⟨t, rfl, rfl, rfl, rfl⟩
  | fault f => cases f
  | refused r => cases h

theorem answerOf_eq_refused {o : Host.Outcome State Fault Refusal} {r : Refusal} (h : answerOf o = .refused r) :
    o = .refused r := by
  cases o with
  | next t => cases h
  | fault f => cases f
  | refused r' => cases h; rfl

/-- A pass answers the same from any registers with the same cursor. -/
theorem scanPass_snd {B : List Byte} {r r' : Regs} (hcur : r'.cur = r.cur) :
    (scanPass B r').2 = (scanPass B r).2 := by
  unfold scanPass
  rw [hcur]
  cases memReadByte B r.cur with
  | none => rfl
  | some b =>
    by_cases hs : b ≠ stx
    · simp [hs]
    · simp only [hs, if_false]
      cases memRead B (r.cur + 1) 3 with
      | none => rfl
      | some d =>
        simp only
        cases lenParse d with
        | none => rfl
        | some L =>
          simp only
          split
          · rfl
          · rcases hx : decodeRun { r with len := L, tot := L + overhead } (slice B r.cur (L + overhead)) with ⟨q, y⟩
            rcases hx' : decodeRun { r' with len := L, tot := L + overhead, cur := r.cur }
              (slice B r.cur (L + overhead)) with ⟨q', y'⟩
            obtain rfl : y' = y := (congrArg Prod.snd hx').symm.trans ((decodeRun_snd _ _ _).trans (congrArg Prod.snd hx))
            cases y' <;> rfl

/-- The loop makes the same records and ends with the same status from any registers with the same cursor. -/
theorem scanLoop_snd {k : Nat} {B : List Byte} {r r' : Regs} (res : List Record) (hn : r.n = B.length)
    (hn' : r'.n = B.length) (hcur : r'.cur = r.cur) : (scanLoop k B r' res).2 = (scanLoop k B r res).2 := by
  induction k generalizing r r' res with
  | zero => rfl
  | succ k ih =>
    by_cases hc : r.cur < B.length
    · have hlt : r.cur < r.n := by omega
      have hlt' : r'.cur < r'.n := by omega
      have hsnd := scanPass_snd (B := B) hcur
      rcases scanPass_cursor hc with ⟨q, o, hp, hq, -, hqn⟩ | ⟨q, e, hp, -⟩
      · rcases scanPass_cursor (hcur ▸ hc) with ⟨q', o', hp', hq', -, hqn'⟩ | ⟨q', e', hp', -⟩
        · obtain rfl : o' = o := by simpa [hp, hp'] using hsnd
          rw [scanLoop_of_ok hlt hp, scanLoop_of_ok hlt' hp']
          exact ih _ (hqn.trans hn) (hqn'.trans hn') (by omega)
        · simp [hp, hp'] at hsnd
      · have hp' : scanPass B r' = ((scanPass B r').1, .error e) := Prod.ext rfl (hsnd.trans (by rw [hp]))
        rw [scanLoop_of_error hlt hp, scanLoop_of_error hlt' hp']
    · rw [scanLoop_stop (by omega), scanLoop_stop (by omega)]

theorem scanRun_snd (r r' : Regs) (B : List Byte) : (scanRun r' B).2 = (scanRun r B).2 :=
  scanLoop_snd [] rfl rfl rfl

theorem execDecode_of_wf {F : List Byte} {s : State} (h : (Instr.decode F).wf s.cfg = true) :
    execDecode F s = .next (decodeEnd s (decodeRun s.regs F)) := if_pos h

theorem execDecode_of_not_wf {F : List Byte} {s : State} (h : ¬ (Instr.decode F).wf s.cfg = true) :
    execDecode F s = .refused .operandTooLong := if_neg h

theorem answerOf_decodeEnd {s s' : State} {x x' : Regs × Except CodecError Record} (hx : x'.2 = x.2)
    (hd : s'.draws = s.draws) : answerOf (.next (decodeEnd s' x')) = answerOf (.next (decodeEnd s x)) := by
  obtain ⟨r, y⟩ := x
  obtain ⟨r', y'⟩ := x'
  obtain rfl : y' = y := hx
  cases y' <;> simp [decodeEnd, hd]

theorem answerOf_encodeRest {v : Nat} {cmd dat : List Byte} {s s' : State}
    (hlen : s.regs.len = 1 + cmd.length + dat.length) (hlen' : s'.regs.len = 1 + cmd.length + dat.length)
    (hd : s'.draws = s.draws) : answerOf (.next (encodeRest v cmd dat s')) = answerOf (.next (encodeRest v cmd dat s)) := by
  obtain ⟨w, hw⟩ := encodeRest_eq (v := v) hlen
  obtain ⟨w', hw'⟩ := encodeRest_eq (v := v) hlen'
  simp only [hw, hw', answerOf_next, hlen, hlen', hd]

section Congr
variable {s s' : State} (hcfg : s'.cfg = s.cfg) (hd : s'.draws = s.draws)
include hd

theorem answerOf_execCrcUpdate (st : Half) (b : Byte) :
    answerOf (execCrcUpdate st b s') = answerOf (execCrcUpdate st b s) := by
  simp [execCrcUpdate, hd]

include hcfg

theorem answerOf_execEncode (idxs cmd dat : List Byte) :
    answerOf (execEncode idxs cmd dat s') = answerOf (execEncode idxs cmd dat s) := by
  by_cases hw : (Instr.encode idxs cmd dat).wf s.cfg = true
  · rw [execEncode_of_wf hw, execEncode_of_wf (hcfg ▸ hw)]
    by_cases hl : 999 < 1 + cmd.length + dat.length
    · simp [encodeRun_of_overflow hl, hd]
    · rw [encodeRun_of_le hl, encodeRun_of_le hl, hcfg]
      cases idxParse s.cfg.idxIntMax idxs with
      | value v => exact answerOf_encodeRest rfl rfl hd
      | nonNumeric => simp [hd]
      | mixed => rfl
      | tooLarge => rfl
  · rw [Bool.not_eq_true] at hw
    rw [execEncode_of_not_wf hw, execEncode_of_not_wf (hcfg ▸ hw)]

theorem answerOf_execDecode (F : List Byte) : answerOf (execDecode F s') = answerOf (execDecode F s) := by
  by_cases hw : (Instr.decode F).wf s.cfg = true
  · rw [execDecode_of_wf hw, execDecode_of_wf (hcfg ▸ hw)]
    exact answerOf_decodeEnd (decodeRun_snd _ _ F) hd
  · rw [execDecode_of_not_wf hw, execDecode_of_not_wf (hcfg ▸ hw)]

theorem answerOf_execScan (B : List Byte) : answerOf (execScan B s') = answerOf (execScan B s) := by
  by_cases hw : (Instr.scan B).wf s.cfg = true
  · rw [execScan_of_wf hw, execScan_of_wf (hcfg ▸ hw)]
    simp [scanRun_snd s.regs s'.regs, hd]
  · rw [execScan_of_not_wf hw, execScan_of_not_wf (hcfg ▸ hw)]

theorem answerOf_exec (i : Instr) : answerOf (exec i s') = answerOf (exec i s) := by
  cases i with
  | crcUpdate st b => exact answerOf_execCrcUpdate hd st b
  | encode idxs cmd dat => exact answerOf_execEncode hcfg hd idxs cmd dat
  | decode F => exact answerOf_execDecode hcfg hd F
  | scan B => exact answerOf_execScan hcfg hd B

end Congr

/-- Settles O7: two states with the same parameters and draw count give every operation the same answer, and the answer
holds status, result and draw count, or the reason of a refusal. -/
theorem resultDependsOnOperandsOnly : Obligations.ResultDependsOnOperandsOnly := by
  intro i s s' hcfg hd
  have hans := answerOf_exec hcfg hd i
  refine ⟨fun t ht => ?answers, fun r hr => ?refuses⟩
  case answers => exact answerOf_eq_next (by rw [hans, ht, answerOf_next])
  case refuses => exact answerOf_eq_refused (by rw [hans, hr, answerOf_refused])

end Sys2Proof.Machine
end

section
/-! Proof that `LEN_TEXT` and `LEN_PARSE` are inverse (30_encoding R63, R64). -/

namespace Sys2Proof.Machine

/-- Three bytes parse exactly when all are digits, and to the value of those digits. -/
theorem lenParse_eq_some_iff (a b c : Byte) (L : Nat) :
    lenParse [a, b, c] = some L ↔
      (IsDigit a ∧ IsDigit b ∧ IsDigit c) ∧ L = 100 * digitVal a + 10 * digitVal b + digitVal c := by
  simp only [lenParse, Option.ite_none_right_eq_some, Option.some.injEq, Bool.and_eq_true, isDigit_iff, and_assoc,
    eq_comm (b := L)]

theorem digitVal_le {b : Byte} (h : IsDigit b) : digitVal b ≤ 9 := Nat.sub_le_sub_right h.2 0x30

theorem decChar_digitVal {b : Byte} (h : IsDigit b) : decChar (digitVal b) = b := by
  rw [decChar, digitVal, Nat.add_sub_cancel' h.1, BitVec.ofNat_toNat, BitVec.setWidth_eq]

theorem lenParse_lenText {L : Nat} (h : L ≤ 999) : lenParse (lenText L) = some L := by
  have h1 : L / 100 ≤ 9 := by omega
  have h2 : L / 10 % 10 ≤ 9 := by omega
  have h3 : L % 10 ≤ 9 := by omega
  refine (lenParse_eq_some_iff _ _ _ L).2 ⟨⟨?_, ?_, ?_⟩, ?_⟩
  · exact (isDigit_iff _).1 (decChar_isDigit h1)
  · exact (isDigit_iff _).1 (decChar_isDigit h2)
  · exact (isDigit_iff _).1 (decChar_isDigit h3)
  · rw [digitVal_decChar h1, digitVal_decChar h2, digitVal_decChar h3]
    omega

theorem lenText_of_digits {x y z : Nat} (hy : y ≤ 9) (hz : z ≤ 9) :
    lenText (100 * x + 10 * y + z) = [decChar x, decChar y, decChar z] := by
  have h1 : (100 * x + 10 * y + z) / 100 = x := by omega
  have h2 : (100 * x + 10 * y + z) / 10 % 10 = y := by omega
  have h3 : (100 * x + 10 * y + z) % 10 = z := by omega
  rw [lenText, h1, h2, h3]

theorem le_999_and_lenText_of_lenParse {a b c : Byte} {L : Nat} (h : lenParse [a, b, c] = some L) :
    L ≤ 999 ∧ lenText L = [a, b, c] := by
  obtain ⟨⟨ha, hb, hc⟩, rfl⟩ := (lenParse_eq_some_iff a b c L).1 h
  have hx := digitVal_le ha
  have hy := digitVal_le hb
  have hz := digitVal_le hc
  refine ⟨by omega, ?_⟩
  rw [lenText_of_digits hy hz, decChar_digitVal ha, decChar_digitVal hb, decChar_digitVal hc]

/-- Settles O23: the digits of the text are the value's own, so parsing gives the value back; and digits determine, and are
determined by, the value they parse to. -/
theorem lengthFieldParsesBack : Obligations.LengthFieldParsesBack := by
  refine ⟨fun L hL => ⟨rfl, lenParse_lenText hL⟩, fun a b c => ?digits, fun a b c L => le_999_and_lenText_of_lenParse⟩
  case digits => simp only [lenParse_eq_some_iff, exists_and_left, exists_eq, and_true]

end Sys2Proof.Machine
end

section
/-! The frames ENCODE may deliver (30_encoding R60, 40_checksum R94): every one is a frame of R60's table, and what stands
at the offsets of such a frame. -/

namespace Sys2Proof.Machine

theorem ckField_of_short {c : Half} (h : ckTag c = .short) (pad : Byte) : ckField c pad = ckText c ++ [pad] := by
  have hl := ckText_length c
  rw [h] at hl
  exact if_neg (by rw [hl]; decide)

/-- The checksum of ENCODE's frame for the index value `v`. -/
def encodedCrc (v : Nat) (cmd dat : List Byte) : Half :=
  crcFold (interiorBytes (1 + cmd.length + dat.length) (idxByte v) cmd dat)

/-- ENCODE's frame for the index value `v` and the draw `pad`. -/
def encodedFrame (v : Nat) (cmd dat : List Byte) (pad : Byte) : List Byte :=
  frameBytes (1 + cmd.length + dat.length) (idxByte v) cmd dat (ckField (encodedCrc v cmd dat) pad)

/-- A SHORT frame with another last byte is the frame of another draw. -/
theorem encodedFrame_dropLast_append {v : Nat} {cmd dat : List Byte} (h : ckTag (encodedCrc v cmd dat) = .short)
    (pad pad' : Byte) : (encodedFrame v cmd dat pad).dropLast ++ [pad'] = encodedFrame v cmd dat pad' := by
  simp only [encodedFrame, frameBytes, ckField_of_short h, ← List.append_assoc, List.dropLast_concat]

theorem encodeRest_result {v : Nat} {cmd dat : List Byte} {s : State}
    (h : s.regs.len = 1 + cmd.length + dat.length) :
    (encodeRest v cmd dat s).result =
      some (.frame (encodedFrame v cmd dat (Config.ckPad s.draws)) (ckTag (encodedCrc v cmd dat))) := by
  obtain ⟨w, hw⟩ := encodeRest_eq (v := v) h
  simp only [hw, h, encodedFrame, encodedCrc]

/-- Only an ENCODE of a class A index with at most 999 content bytes delivers a frame. -/
theorem encodedFrame_of_delivers {idxs cmd dat out : List Byte} {tag : Tag} {s : State}
    (h : Delivers (exec (.encode idxs cmd dat) s) .ok (some (.frame out tag))) :
    ∃ v, (Instr.encode idxs cmd dat).wf s.cfg = true ∧ 1 + cmd.length + dat.length ≤ 999 ∧
      ClassA s.cfg.idxIntMax idxs v ∧ tag = ckTag (encodedCrc v cmd dat) ∧
      out = encodedFrame v cmd dat (Config.ckPad s.draws) := by
  obtain ⟨t, (ht : execEncode idxs cmd dat s = .next t), hst, hres⟩ := h
  rcases execEncode_cases idxs cmd dat s with ⟨-, h⟩ | ⟨-, -, h⟩ | ⟨-, -, -, h⟩ | ⟨-, -, -, h⟩ | ⟨-, -, -, h⟩ |
    ⟨v, hw, hl, hv, h⟩
  · cases ht.symm.trans h
  · cases ht.symm.trans h
    cases hst
  · cases ht.symm.trans h
    cases hst
  · cases ht.symm.trans h
  · cases ht.symm.trans h
  · cases ht.symm.trans h
    rw [encodeRest_result rfl] at hres
    cases hres
    exact ⟨v, hw, hl, (idxParse_value_iff _ _ _).1 hv, rfl, rfl⟩

/-- Every frame an ENCODE may deliver is its frame for some draw. -/
theorem EncodesTo.exists_encodedFrame {idxs cmd dat F : List Byte} {tag : Tag} {s : State}
    (h : EncodesTo idxs cmd dat s F tag) :
    ∃ v pad, (Instr.encode idxs cmd dat).wf s.cfg = true ∧ 1 + cmd.length + dat.length ≤ 999 ∧
      ClassA s.cfg.idxIntMax idxs v ∧ tag = ckTag (encodedCrc v cmd dat) ∧ F = encodedFrame v cmd dat pad := by
  obtain ⟨out, hout, hF⟩ := h
  obtain ⟨v, hw, hl, hv, rfl, rfl⟩ := encodedFrame_of_delivers hout
  rcases hF with rfl | ⟨hshort, pad, rfl⟩
  · exact ⟨v, _, hw, hl, hv, rfl, rfl⟩
  · exact ⟨v, pad, hw, hl, hv, rfl, encodedFrame_dropLast_append hshort _ pad⟩

/-- R60's table, cut at the offsets 5 and `L + 4`. -/
theorem frameBytes_eq_append (L : Nat) (i : Byte) (cmd dat field : List Byte) :
    frameBytes L i cmd dat field = (0x02#8 :: lenText L ++ [i]) ++ ((cmd ++ dat) ++ 0x03#8 :: field) := by
  simp [frameBytes, interiorBytes, lenText, decChar]

theorem frameBytes_hasLength {L : Nat} (hL : L ≤ 999) (i : Byte) (cmd dat field : List Byte) :
    HasLength (frameBytes L i cmd dat field) 0 L := by
  refine (lenParse_slice_iff (by rw [frameBytes_length]; omega) L).1 ?_
  exact lenParse_lenText hL

theorem frameBytes_drop_five (L : Nat) (i : Byte) (cmd dat field : List Byte) :
    (frameBytes L i cmd dat field).drop 5 = (cmd ++ dat) ++ 0x03#8 :: field := by
  rw [frameBytes_eq_append]
  exact List.drop_left' rfl

theorem frameBytes_content (L : Nat) (i : Byte) (cmd dat field : List Byte) :
    ((frameBytes L i cmd dat field).drop 5).take (cmd.length + dat.length) = cmd ++ dat := by
  rw [frameBytes_drop_five]
  exact List.take_left' List.length_append

theorem frameBytes_end_marker (L : Nat) (i : Byte) (cmd dat field : List Byte) :
    (frameBytes L i cmd dat field)[5 + (cmd ++ dat).length]? = some 0x03#8 := by
  rw [← List.getElem?_drop, frameBytes_drop_five]
  simp

end Sys2Proof.Machine
end

section
/-! Proof that a frame has its embedded length plus 9 bytes (30_encoding R61). -/

namespace Sys2Proof.Machine

theorem encodedFrame_length (v : Nat) (cmd dat : List Byte) (pad : Byte) :
    (encodedFrame v cmd dat pad).length = 1 + cmd.length + dat.length + 9 := by
  rw [encodedFrame, frameBytes_length, ckField_length]
  omega

/-- Settles O30: whatever the draw, the frame is R60's table with a 4-byte field, so its embedded length and the places of
its markers and of its content follow from the lengths of the operands. -/
theorem encodedFrameSize : Obligations.EncodedFrameSize := by
  intro idxs cmd dat out tag s h
  obtain ⟨v, pad, -, hL, -, -, rfl⟩ := h.exists_encodedFrame
  have hlen := encodedFrame_length v cmd dat pad
  refine ⟨1 + cmd.length + dat.length, frameBytes_hasLength hL .., hlen, rfl, by omega, by omega, rfl, ?marker, ?content⟩
  case marker =>
    have e : 1 + cmd.length + dat.length + 4 = 5 + (cmd ++ dat).length := by rw [List.length_append]; omega
    rw [e]
    exact frameBytes_end_marker ..
  case content =>
    have e : 1 + cmd.length + dat.length - 1 = cmd.length + dat.length := by omega
    rw [e]
    exact frameBytes_content ..

end Sys2Proof.Machine
end

section
/-! Proof of CRC_UPDATE's eight steps (40_checksum R90) and of the fold as one update per byte (R91). -/

namespace Sys2Proof.Machine

/-- Settles O15: the working values are the loaded one after `k` steps of the engine's loop. -/
theorem crcUpdateRunsEightShiftSteps : Obligations.CrcUpdateRunsEightShiftSteps :=
  fun st b _ => ⟨fun k => crcShifts k (crcLoad st b), rfl, fun k _ => crcShifts_succ_last k _, rfl⟩

theorem crcFold_take_succ {S : List Byte} {j : Nat} {b : Byte} (h : S[j]? = some b) :
    crcFold (S.take (j + 1)) = crcUpdate (crcFold (S.take j)) b := by
  rw [List.take_add_one, h, crcFold_append]
  rfl

theorem delivers_crcUpdate (st : Half) (b : Byte) (s : State) :
    Delivers (exec (.crcUpdate st b) s) .ok (some (.newState (crcUpdate st b))) := ⟨_, rfl, rfl, rfl⟩

/-- Settles O20: the `j`-th checksum state is the fold of the first `j` bytes. -/
theorem checksumIsOneUpdatePerByte : Obligations.ChecksumIsOneUpdatePerByte := by
  intro S s
  refine ⟨fun j => crcFold (S.take j), rfl, fun j b hb => ?update, congrArg crcFold S.take_length.symm⟩
  case update =>
    simp only [crcFold_take_succ hb]
    exact delivers_crcUpdate _ b s

end Sys2Proof.Machine
end

section
/-! The checksum engine is linear over exclusive-or (40_checksum R95 (a), (b)): a shift step distributes over it, and while
the low bit is 0 a step only shifts. -/

namespace Sys2Proof.Machine

theorem crcShift_eq_xor (w : Work) : crcShift w = w >>> 1 ^^^ if w.getLsbD 0 then poly else 0#24 := by
  unfold crcShift
  split
  · rfl
  · rw [BitVec.xor_zero]

theorem crcShift_xor (v w : Work) : crcShift (v ^^^ w) = crcShift v ^^^ crcShift w := by
  have hmask (p q : Bool) : (if p ^^ q then poly else 0#24) = (if p then poly else 0#24) ^^^ if q then poly else 0#24 := by
    cases p <;> cases q <;> rfl
  simp only [crcShift_eq_xor, BitVec.getLsbD_xor, hmask, BitVec.ushiftRight_xor_distrib]
  ac_rfl

theorem crcShifts_xor (k : Nat) (v w : Work) : crcShifts k (v ^^^ w) = crcShifts k v ^^^ crcShifts k w := by
  induction k generalizing v w with
  | zero => rfl
  | succ k ih => simp only [crcShifts_succ, crcShift_xor, ih]

theorem crcShifts_of_low_zero {k : Nat} {w : Work} (h : ∀ j < k, w.getLsbD j = false) : crcShifts k w = w >>> k := by
  induction k with
  | zero => rfl
  | succ k ih =>
    have hlow : (w >>> k).getLsbD 0 = false := by simpa using h k k.lt_succ_self
    rw [crcShifts_succ_last, ih fun j hj => h j (Nat.lt_succ_of_lt hj), crcShift_eq_xor, hlow, BitVec.shiftRight_add]
    exact BitVec.xor_zero

/-- The byte and the state do not overlap in the working value, so the sum of R90 only puts them side by side. -/
theorem crcLoad_eq_append (s : Half) (b : Byte) : crcLoad s b = b ++ s := by
  have hdisj : b.setWidth 24 <<< 16 &&& s.setWidth 24 = 0#24 := by
    ext i
    by_cases hi : i < 16
    · simp [hi]
    · simp [BitVec.getLsbD_of_ge s i (by omega)]
  rw [crcLoad, BitVec.add_eq_or_of_and_eq_zero _ _ hdisj, ← BitVec.setWidth_append_eq_shiftLeft_setWidth_or,
    BitVec.setWidth_eq]

theorem crcLoad_xor (s₁ s₂ : Half) (b₁ b₂ : Byte) :
    crcLoad (s₁ ^^^ s₂) (b₁ ^^^ b₂) = crcLoad s₁ b₁ ^^^ crcLoad s₂ b₂ := by
  simp only [crcLoad_eq_append]
  exact BitVec.xor_append.symm

theorem crcUpdate_xor (s₁ s₂ : Half) (b₁ b₂ : Byte) :
    crcUpdate (s₁ ^^^ s₂) (b₁ ^^^ b₂) = crcUpdate s₁ b₁ ^^^ crcUpdate s₂ b₂ := by
  simp only [crcUpdate, crcWork, crcLoad_xor, crcShifts_xor, BitVec.extractLsb'_xor]

/-- With a zero low byte of the state no step sees a 1, so state and byte move down by 8 bits unchanged. -/
theorem crcUpdate_of_low_zero {s : Half} (h : ∀ j < 8, s.getLsbD j = false) (b : Byte) :
    crcUpdate s b = s >>> 8 ^^^ b.setWidth 16 <<< 8 := by
  have hlow : ∀ j < 8, (crcLoad s b).getLsbD j = false := fun j hj => by
    rw [crcLoad_eq_append, BitVec.getLsbD_append, if_pos (by omega), h j hj]
  rw [crcUpdate, crcWork, crcShifts_of_low_zero hlow, crcLoad_eq_append]
  ext i
  rw [BitVec.getElem_extractLsb', BitVec.getLsbD_ushiftRight, BitVec.getLsbD_append]
  by_cases hi : i < 8
  · have hs : 8 + i < 16 := by omega
    simp [hi, hs]
  · have hs : ¬ 8 + i < 16 := by omega
    have hb : 8 + i - 16 = i - 8 := by omega
    simp [hi, hs, hb, BitVec.getLsbD_of_ge s (8 + i) (by omega)]

theorem crcUpdate_zero_state (b : Byte) : crcUpdate 0#16 b = b.setWidth 16 <<< 8 := by
  simpa using crcUpdate_of_low_zero (s := 0#16) (fun _ _ => BitVec.getLsbD_zero) b

theorem crcUpdate_eq_zeroByte_xor (s : Half) (b : Byte) : crcUpdate s b = crcUpdate s 0#8 ^^^ b.setWidth 16 <<< 8 := by
  simpa [crcUpdate_zero_state] using crcUpdate_xor s 0#16 0#8 b

/-- Settles O16: every step is linear, and from the state 0 the eight steps only move the byte. -/
theorem crcUpdateIsLinearOverXor : Obligations.CrcUpdateIsLinearOverXor :=
  ⟨crcUpdate_xor, crcUpdate_eq_zeroByte_xor⟩

end Sys2Proof.Machine
end

section
/-! Fed a zero byte, the engine makes the eight steps of the conventional reflected CRC, and each of them can be undone
(40_checksum R95 (c), (d)). -/

namespace Sys2Proof.Machine

/-- One of the eight steps of `kermitUpdate`. -/
def kermitShift (x : Half) : Half := if x.getLsbD 0 then (x >>> 1) ^^^ 0x8408#16 else x >>> 1

theorem kermitUpdate_eq_iterate (c : Half) (b : Byte) : kermitUpdate c b = kermitShift^[8] (c ^^^ b.setWidth 16) := rfl

theorem kermitShift_eq_xor (x : Half) : kermitShift x = x >>> 1 ^^^ if x.getLsbD 0 then 0x8408#16 else 0#16 := by
  unfold kermitShift
  split
  · rfl
  · rw [BitVec.xor_zero]

/-- On a working value that fits 16 bits the engine's step is the reflected CRC's. -/
theorem crcShift_setWidth (x : Half) : crcShift (x.setWidth 24) = (kermitShift x).setWidth 24 := by
  have hlow : (x.setWidth 24).getLsbD 0 = x.getLsbD 0 := by simp
  rw [crcShift_eq_xor, kermitShift_eq_xor, hlow, BitVec.setWidth_xor]
  cases x.getLsbD 0 <;> simp [poly]

theorem crcShifts_setWidth (k : Nat) (x : Half) : crcShifts k (x.setWidth 24) = (kermitShift^[k] x).setWidth 24 := by
  induction k generalizing x with
  | zero => rfl
  | succ k ih => rw [crcShifts_succ, crcShift_setWidth, ih, Function.iterate_succ_apply]

theorem crcUpdate_zeroByte (s : Half) : crcUpdate s 0#8 = kermitShift^[8] s := by
  have hload : crcLoad s 0#8 = s.setWidth 24 := by simp [crcLoad]
  rw [crcUpdate, crcWork, hload, crcShifts_setWidth]
  exact (BitVec.extractLsb'_setWidth_of_le (by decide)).trans BitVec.extractLsb'_eq_self

/-- The shift leaves bit 15 free and the polynomial sets it, so it shows which step was made. -/
theorem kermitShift_bit_15 (x : Half) : (kermitShift x).getLsbD 15 = x.getLsbD 0 := by
  rw [kermitShift_eq_xor]
  cases x.getLsbD 0 <;> simp

theorem kermitShift_injective : Function.Injective kermitShift := by
  intro x y h
  have hlow : x.getLsbD 0 = y.getLsbD 0 := by rw [← kermitShift_bit_15, h, kermitShift_bit_15]
  have hhigh : x >>> 1 = y >>> 1 := by
    rw [kermitShift_eq_xor, kermitShift_eq_xor, hlow] at h
    exact (BitVec.xor_left_inj _).1 h
  refine BitVec.eq_of_getLsbD_eq fun i _ => ?_
  cases i with
  | zero => exact hlow
  | succ i => simpa [Nat.add_comm] using congrArg (·.getLsbD i) hhigh

theorem zeroByteUpdate_injective : Function.Injective fun s : Half => crcUpdate s 0#8 := by
  simp only [crcUpdate_zeroByte]
  exact kermitShift_injective.iterate 8

/-- Settles O17: the eight steps are injective, and there are finitely many states. -/
theorem zeroByteUpdateIsBijective : Obligations.ZeroByteUpdateIsBijective :=
  Finite.injective_iff_bijective.1 zeroByteUpdate_injective

theorem crcUpdate_injective_state (b : Byte) : Function.Injective fun s : Half => crcUpdate s b := by
  intro s t h
  simp only [crcUpdate_eq_zeroByte_xor _ b] at h
  exact zeroByteUpdate_injective ((BitVec.xor_left_inj _).1 h)

theorem crcUpdate_injective_byte (s : Half) : Function.Injective (crcUpdate s) := by
  intro b b' h
  rw [crcUpdate_eq_zeroByte_xor, crcUpdate_eq_zeroByte_xor s b'] at h
  have hhigh := (BitVec.xor_right_inj _).1 h
  refine BitVec.eq_of_getLsbD_eq fun i hi => ?_
  have hi' : i + 8 < 16 := by omega
  simpa [hi, hi'] using congrArg (·.getLsbD (i + 8)) hhigh

theorem foldl_crcUpdate_injective (S : List Byte) : Function.Injective fun c : Half => S.foldl crcUpdate c := by
  induction S with
  | nil => exact fun _ _ h => h
  | cons b S ih => exact fun _ _ h => crcUpdate_injective_state b (ih h)

/-- Settles O18: the changed byte gives another state, and the bytes after it keep the states apart. -/
theorem oneByteChangeChangesTheChecksum : Obligations.OneByteChangeChangesTheChecksum := by
  intro pre post b b' hb h
  rw [crcFold_append, crcFold_append] at h
  exact hb (crcUpdate_injective_byte _ (foldl_crcUpdate_injective post h))

end Sys2Proof.Machine
end

section
/-! Proof that the engine is the conventional reflected CRC, two zero bytes behind (40_checksum R95 (e), R96). -/

namespace Sys2Proof.Machine

theorem kermitUpdate_eq_zeroByteUpdate (c : Half) (b : Byte) :
    kermitUpdate c b = crcUpdate (c ^^^ b.setWidth 16) 0#8 := by
  rw [crcUpdate_zeroByte, kermitUpdate_eq_iterate]

theorem zeroByteUpdate_xor (s t : Half) : crcUpdate (s ^^^ t) 0#8 = crcUpdate s 0#8 ^^^ crcUpdate t 0#8 :=
  crcUpdate_xor s t 0#8 0#8

theorem zeroByteUpdate_high_byte (b : Byte) : crcUpdate (b.setWidth 16 <<< 8) 0#8 = b.setWidth 16 := by
  have hlow : ∀ j < 8, (b.setWidth 16 <<< 8).getLsbD j = false := fun j hj => by simp [hj]
  have hback : b.setWidth 16 <<< 8 >>> 8 = b.setWidth 16 := by bv_omega
  rw [crcUpdate_of_low_zero hlow, hback]
  exact BitVec.xor_zero

/-- The zero bytes bring a byte from the high half, where the engine takes it in, to the low half, where the reflected CRC
does. -/
theorem kermitUpdate_two_zeroByteUpdates (c : Half) (b : Byte) :
    kermitUpdate (crcUpdate (crcUpdate c 0#8) 0#8) b = crcUpdate (crcUpdate (crcUpdate c b) 0#8) 0#8 :=
  calc
    _ = crcUpdate (crcUpdate (crcUpdate c 0#8) 0#8 ^^^ b.setWidth 16) 0#8 := kermitUpdate_eq_zeroByteUpdate ..
    _ = crcUpdate (crcUpdate (crcUpdate c 0#8 ^^^ b.setWidth 16 <<< 8) 0#8) 0#8 := by
      rw [zeroByteUpdate_xor _ (b.setWidth 16 <<< 8), zeroByteUpdate_high_byte]
    _ = _ := by rw [← crcUpdate_eq_zeroByte_xor]

theorem foldl_kermitUpdate (S : List Byte) (c : Half) :
    S.foldl kermitUpdate (crcUpdate (crcUpdate c 0#8) 0#8) = crcUpdate (crcUpdate (S.foldl crcUpdate c) 0#8) 0#8 := by
  induction S generalizing c with
  | nil => rfl
  | cons b S ih => rw [List.foldl_cons, kermitUpdate_two_zeroByteUpdates, ih, List.foldl_cons]

/-- Settles O19: advanced by two zero bytes, the engine's state is the reflected CRC's after every byte, and the initial
state 0 stays 0. -/
theorem twoZeroBytesGiveTheReflectedCrc : Obligations.TwoZeroBytesGiveTheReflectedCrc := by
  intro S
  have hinit : crcUpdate 0#16 0#8 = 0#16 := crcUpdate_zero_state 0#8
  have hfold := foldl_kermitUpdate S 0#16
  rw [hinit, hinit] at hfold
  rw [crcFold_append, hfold]
  rfl

end Sys2Proof.Machine
end

section
/-! Proof that the checksum can be read back from its field, and so from its text (40_checksum R92, R94). -/

namespace Sys2Proof.Machine

/-- The digit a hexadecimal character stands for. -/
def hexVal (b : Byte) : Nat := if b.toNat ≤ 0x39 then b.toNat - 0x30 else b.toNat - 0x57

theorem hexVal_hexChar : ∀ h : BitVec 4, hexVal (hexChar h) = h.toNat := by decide

theorem hexChar_ne_space : ∀ h : BitVec 4, hexChar h ≠ space := by decide

/-- The checksum a 4-byte field shows: the space, if there is one, ends its digits. -/
def fieldValue : List Byte → Nat
  | [a, b, x, y] =>
    if x = space then 16 * hexVal a + hexVal b
    else if y = space then 256 * hexVal a + 16 * hexVal b + hexVal x
    else 4096 * hexVal a + 256 * hexVal b + 16 * hexVal x + hexVal y
  | _ => 0

theorem fieldValue_ckField (c : Half) (pad : Byte) : fieldValue (ckField c pad) = c.toNat := by
  have hlt := c.isLt
  have hdigit (k : Nat) : hexVal (hexChar (c.extractLsb' k 4)) = c.toNat / 2 ^ k % 16 := by
    rw [hexVal_hexChar, BitVec.extractLsb'_toNat, Nat.shiftRight_eq_div_pow]
  by_cases h4 : 0x1000 ≤ c.toNat
  · have hfield : ckField c pad = [hexChar (c.extractLsb' 12 4), hexChar (c.extractLsb' 8 4), hexChar (c.extractLsb' 4 4),
        hexChar (c.extractLsb' 0 4)] := by simp [ckField, ckText, ckBytes, h4]
    simp only [hfield, fieldValue, hexChar_ne_space, if_false, hdigit]
    omega
  · by_cases h3 : 0x0100 ≤ c.toNat
    · have hfield : ckField c pad = [hexChar (c.extractLsb' 8 4), hexChar (c.extractLsb' 4 4), hexChar (c.extractLsb' 0 4),
          space] := by simp [ckField, ckText, ckBytes, h4, h3]
      simp only [hfield, fieldValue, hexChar_ne_space, if_false, if_true, hdigit]
      omega
    · have hfield : ckField c pad = [hexChar (c.extractLsb' 4 4), hexChar (c.extractLsb' 0 4), space, pad] := by
        simp [ckField, ckText, ckBytes, h4, h3]
      simp only [hfield, fieldValue, if_true, hdigit]
      omega

theorem ckField_injective {c d : Half} {p q : Byte} (h : ckField c p = ckField d q) : c = d :=
  BitVec.eq_of_toNat_eq <| by rw [← fieldValue_ckField c p, h, fieldValue_ckField]

/-- Settles O22: the field shows the checksum, and the text gives the field. -/
theorem checksumTextIsInjective : Obligations.ChecksumTextIsInjective :=
  ⟨fun _ _ h => ckField_injective (p := 0#8) (q := 0#8) (by simp only [ckField, h]), fun _ _ _ _ => ckField_injective⟩

end Sys2Proof.Machine
end

section
/-! Proof that the draw shows in the last byte of a SHORT frame and nowhere else (40_checksum R97, 20_memory R48). -/

namespace Sys2Proof.Machine

theorem ckField_of_ne_short {c : Half} (h : ckTag c ≠ .short) (pad : Byte) : ckField c pad = (ckText c).take 4 := by
  have hl := ckText_length c
  refine if_pos ?_
  cases ht : ckTag c with
  | short => exact absurd ht h
  | fits => rw [hl, ht]; decide
  | truncated => rw [hl, ht]; decide

section Draws
variable {v : Nat} {cmd dat : List Byte} (pad pad' : Byte)

theorem encodedFrame_of_ne_short (h : ckTag (encodedCrc v cmd dat) ≠ .short) :
    encodedFrame v cmd dat pad' = encodedFrame v cmd dat pad := by
  simp only [encodedFrame, ckField_of_ne_short h]

theorem encodedFrame_getElem?_before_last {k : Nat} (hk : k + 1 < (encodedFrame v cmd dat pad).length) :
    (encodedFrame v cmd dat pad')[k]? = (encodedFrame v cmd dat pad)[k]? := by
  by_cases hs : ckTag (encodedCrc v cmd dat) = .short
  · have hlt : k < (encodedFrame v cmd dat pad).length - 1 := by omega
    rw [← encodedFrame_dropLast_append hs pad pad', List.getElem?_append_left (by rwa [List.length_dropLast]),
      List.getElem?_dropLast, if_pos hlt]
  · rw [encodedFrame_of_ne_short pad pad' hs]

end Draws

/-- Settles O31: the index string has one value, so both frames are the frame of that value for some draw. -/
theorem encodeRepeatsUpToCkPad : Obligations.EncodeRepeatsUpToCkPad := by
  intro idxs cmd dat out out' tag tag' s s' _ h h'
  obtain ⟨_, -, -, ⟨-, -, rfl, -⟩, rfl, rfl⟩ := encodedFrame_of_delivers h
  obtain ⟨_, -, -, ⟨-, -, rfl, -⟩, rfl, rfl⟩ := encodedFrame_of_delivers h'
  refine ⟨rfl, ?size, fun _ => encodedFrame_getElem?_before_last _ _, encodedFrame_of_ne_short _ _⟩
  case size => rw [encodedFrame_length, encodedFrame_length]

end Sys2Proof.Machine
end

section
/-! What ENCODE answers when it answers a next state (41_encoder R114): the overflow, the FormatError, or the frame. -/

namespace Sys2Proof.Machine

/-- The state that ENCODE's steps 1 to 4 leave: `LEN` and `TOT` computed, start marker and length field written. -/
def State.headWritten (s : State) (len : Nat) : State :=
  { s with regs := { s.regs with len := len, tot := len + 9 }, out := encodeHead len }

section Encode
variable {idxs cmd dat : List Byte} {s t : State}

theorem execEncode_of_overflow (hw : (Instr.encode idxs cmd dat).wf s.cfg = true)
    (hl : 999 < 1 + cmd.length + dat.length) :
    execEncode idxs cmd dat s =
      .next (({ s with regs := { s.regs with len := 1 + cmd.length + dat.length } } : State).raise .lengthOverflow none) :=
  (execEncode_of_wf hw).trans (encodeRun_of_overflow hl)

theorem execEncode_of_classA {v : Nat} (hw : (Instr.encode idxs cmd dat).wf s.cfg = true)
    (hv : ClassA s.cfg.idxIntMax idxs v) (hl : 1 + cmd.length + dat.length ≤ 999) :
    execEncode idxs cmd dat s = .next (encodeRest v cmd dat (s.headWritten (1 + cmd.length + dat.length))) := by
  rw [execEncode_of_wf hw, encodeRun_of_le hl.not_gt, (idxParse_value_iff _ _ _).2 hv]
  rfl

/-- The three ways in which ENCODE answers a next state. -/
theorem execEncode_next (h : execEncode idxs cmd dat s = .next t) :
    (Instr.encode idxs cmd dat).wf s.cfg = true ∧
      ((999 < 1 + cmd.length + dat.length ∧
          t = ({ s with regs := { s.regs with len := 1 + cmd.length + dat.length } } : State).raise .lengthOverflow none) ∨
        (1 + cmd.length + dat.length ≤ 999 ∧
          t = (s.headWritten (1 + cmd.length + dat.length)).raise .formatError none) ∨
        (1 + cmd.length + dat.length ≤ 999 ∧ ∃ v, ClassA s.cfg.idxIntMax idxs v ∧
          t = encodeRest v cmd dat (s.headWritten (1 + cmd.length + dat.length)))) := by
  rcases execEncode_cases idxs cmd dat s with ⟨-, he⟩ | ⟨hw, hl, he⟩ | ⟨hw, hl, -, he⟩ | ⟨-, -, -, he⟩ | ⟨-, -, -, he⟩ |
    ⟨v, hw, hl, hv, he⟩ <;> cases h.symm.trans he
  case inr.inl => exact ⟨hw, .inl ⟨hl, rfl⟩⟩
  case inr.inr.inl => exact ⟨hw, .inr (.inl ⟨hl, rfl⟩)⟩
  case inr.inr.inr.inr.inr => exact ⟨hw, .inr (.inr ⟨hl, v, (idxParse_value_iff _ _ _).1 hv, rfl⟩)⟩

/-- The state of a successful ENCODE, field by field. -/
theorem encodeRest_headWritten (v : Nat) (cmd dat : List Byte) (s : State) :
    ∃ w, encodeRest v cmd dat (s.headWritten (1 + cmd.length + dat.length)) =
      { s with
        regs := { s.regs with
          len := 1 + cmd.length + dat.length, tot := 1 + cmd.length + dat.length + 9, idxv := v, idx := idxByte v, w := w,
          crc := encodedCrc v cmd dat, tag := ckTag (encodedCrc v cmd dat) }
        out := Memory.filled (1 + cmd.length + dat.length + 9) (encodedFrame v cmd dat (Config.ckPad s.draws))
        draws := drawsAfter (ckTag (encodedCrc v cmd dat)) s.draws
        status := .ok
        result := some (.frame (encodedFrame v cmd dat (Config.ckPad s.draws)) (ckTag (encodedCrc v cmd dat))) } :=
  encodeRest_eq rfl

end Encode

theorem drawsAfter_eq_ite (tag : Tag) (draws : Nat) :
    drawsAfter tag draws = if tag = .short then draws + 1 else draws := by
  cases tag <;> rfl

theorem encodedFrame_filled_wf (v : Nat) (cmd dat : List Byte) (pad : Byte) :
    (Memory.filled (1 + cmd.length + dat.length + 9) (encodedFrame v cmd dat pad)).wf :=
  Memory.filled_wf (encodedFrame_length v cmd dat pad).le

theorem encodedFrame_end_marker (v : Nat) (cmd dat : List Byte) (pad : Byte) :
    (encodedFrame v cmd dat pad)[(encodedFrame v cmd dat pad).length - 5]? = some 0x03#8 := by
  have e : 1 + cmd.length + dat.length + 9 - 5 = 5 + (cmd ++ dat).length := by rw [List.length_append]; omega
  rw [encodedFrame_length, e]
  exact frameBytes_end_marker ..

end Sys2Proof.Machine
end

section
/-! Proof that every step keeps the invariant (10_state R23, R30; 30_encoding R73; 41_encoder R117): the bounds of the
registers under each write, then operation by operation. -/

namespace Sys2Proof.Machine

section Bounds
variable {c : Config} {r : Regs}

theorem regsBounded_reset (c : Config) : RegsBounded c Regs.reset :=
  ⟨Nat.zero_le _, fun _ _ => Nat.zero_le _, fun _ _ => ⟨Nat.zero_le _, Nat.zero_le _⟩, fun _ _ => Nat.zero_le _⟩

theorem RegsBounded.set_tot (h : RegsBounded c r) {tot : Nat} (ht : tot ≤ 1008) : RegsBounded c { r with tot := tot } :=
  ⟨ht, h.2⟩

theorem RegsBounded.set_idxv (h : RegsBounded c r) {v : Nat} (hv : ∀ m, c.idxIntMax = some m → v ≤ m) :
    RegsBounded c { r with idxv := v } := by
  obtain ⟨ht, -, hb, hl⟩ := h
  exact ⟨ht, hv, hb, hl⟩

theorem RegsBounded.set_n (h : RegsBounded c r) {n : Nat} (hn : Config.within c.bufMax n = true) :
    RegsBounded c { r with n := n } := by
  obtain ⟨ht, hv, hb, hl⟩ := h
  exact ⟨ht, hv, fun m hm => ⟨(within_iff _ _).1 hn m hm, (hb m hm).2⟩, hl⟩

theorem RegsBounded.set_cur (h : RegsBounded c r) {n cur : Nat} (hn : Config.within c.bufMax n = true) (hc : cur ≤ n) :
    RegsBounded c { r with cur := cur } := by
  obtain ⟨ht, hv, hb, hl⟩ := h
  exact ⟨ht, hv, fun m hm => ⟨(hb m hm).1, hc.trans ((within_iff _ _).1 hn m hm)⟩, hl⟩

theorem RegsBounded.set_len (h : RegsBounded c r) {len : Nat}
    (hlen : ∀ m, c.opndMax = some m → len ≤ max 999 (1 + 2 * m)) : RegsBounded c { r with len := len } := by
  obtain ⟨ht, hv, hb, -⟩ := h
  exact ⟨ht, hv, hb, hlen⟩

theorem RegsBounded.set_len_of_le (h : RegsBounded c r) {len : Nat} (hlen : len ≤ 999) :
    RegsBounded c { r with len := len } :=
  h.set_len fun _ _ => hlen.trans (le_max_left ..)

end Bounds

/-! ### ENCODE -/

/-- 10_state R23: command and data within `OPND_MAX` bound `LEN`. -/
theorem encode_len_le_of_wf {c : Config} {idxs cmd dat : List Byte} (hw : (Instr.encode idxs cmd dat).wf c = true)
    (m : Nat) (hm : c.opndMax = some m) : 1 + cmd.length + dat.length ≤ max 999 (1 + 2 * m) := by
  simp only [Instr.wf, Bool.and_eq_true, within_iff] at hw
  obtain ⟨⟨-, hcmd⟩, hdat⟩ := hw
  have := hcmd m hm
  have := hdat m hm
  omega

theorem encodedFrame_deliveryWf {cmd dat : List Byte} (hl : 1 + cmd.length + dat.length ≤ 999) (v : Nat) (pad : Byte)
    (tag : Tag) : DeliveryWf .ok (some (.frame (encodedFrame v cmd dat pad) tag)) := by
  have hlen := encodedFrame_length v cmd dat pad
  refine ⟨by omega, by omega, rfl, encodedFrame_end_marker v cmd dat pad, ?length⟩
  case length =>
    rw [hlen, Nat.add_sub_cancel]
    exact frameBytes_hasLength hl ..

theorem execEncode_keeps_inv {idxs cmd dat : List Byte} {s t : State} (hs : s.Inv)
    (h : execEncode idxs cmd dat s = .next t) : t.Inv := by
  obtain ⟨hcfg, hout, hsize, hregs, -⟩ := hs
  obtain ⟨hw, ⟨-, rfl⟩ | ⟨hl, rfl⟩ | ⟨hl, v, ⟨-, -, -, hv⟩, rfl⟩⟩ := execEncode_next h
  · exact ⟨hcfg, hout, hsize, hregs.set_len (encode_len_le_of_wf hw), trivial⟩
  · have hhead : (encodeHead (1 + cmd.length + dat.length)).wf := by
      rw [encodeHead_eq]
      exact Memory.filled_wf (by simp)
    refine ⟨hcfg, hhead, ?size, (hregs.set_len_of_le hl).set_tot (by omega), trivial⟩
    case size =>
      have hsz : (encodeHead (1 + cmd.length + dat.length)).size = 1 + cmd.length + dat.length + 9 := by
        rw [encodeHead_eq, Memory.filled_size]
      exact hsz.le.trans (by omega)
  · obtain ⟨w, hrest⟩ := encodeRest_headWritten v cmd dat s
    rw [hrest]
    exact ⟨hcfg, encodedFrame_filled_wf .., Nat.add_le_add_right hl 9,
      ((hregs.set_len_of_le hl).set_tot (by omega)).set_idxv hv, encodedFrame_deliveryWf hl ..⟩

/-! ### DECODE -/

theorem frameRecord_wf {F : List Byte} {L : Nat} (hL : HasLength F 0 L) (h8 : 8 ≤ F.length)
    (hd : 4 < L → L + 4 ≤ F.length) : (frameRecord F L).wf := by
  obtain ⟨hck, hck'⟩ := ckText_length_bounds (crcFold ((F.drop 1).take (F.length - 5)))
  refine ⟨hL.le_999, ?_, ?_, hck, hck', ?_⟩ <;> simp [frameRecord] <;> omega

theorem decodeEnd_keeps_inv {s : State} {F : List Byte} (hs : s.Inv) (hF : Config.within s.cfg.bufMax F.length = true) :
    (decodeEnd s (decodeRun s.regs F)).Inv := by
  obtain ⟨hcfg, hout, hsize, hregs, -⟩ := hs
  have hn := hregs.set_n hF
  rcases decodeRun_cases s.regs F with ⟨-, h⟩ | ⟨-, -, h⟩ | ⟨L, hL, -, h⟩ | ⟨L, i, hL, -, -, h⟩ | ⟨L, i, w, hL, -, h8, hd, h⟩ <;>
    rw [h]
  · exact ⟨hcfg, hout, hsize, hn, trivial⟩
  · exact ⟨hcfg, hout, hsize, hn, trivial⟩
  · exact ⟨hcfg, hout, hsize, hn.set_len_of_le hL.le_999, trivial⟩
  · exact ⟨hcfg, hout, hsize, hn.set_len_of_le hL.le_999, trivial⟩
  · exact ⟨hcfg, hout, hsize, hn.set_len_of_le hL.le_999, frameRecord_wf hL h8 hd⟩

theorem execDecode_keeps_inv {F : List Byte} {s t : State} (hs : s.Inv) (h : execDecode F s = .next t) : t.Inv := by
  by_cases hw : (Instr.decode F).wf s.cfg = true
  · rw [execDecode_of_wf hw] at h
    cases h
    exact decodeEnd_keeps_inv hs hw
  · cases h.symm.trans (execDecode_of_not_wf hw)

/-! ### SCAN -/

section Scan
variable {c : Config} {B : List Byte}

/-- A pass keeps the register bounds; the record it makes has its field widths, and it ends with no other error than
SCAN's two. -/
theorem scanPass_bounded {r : Regs} (hB : Config.within c.bufMax B.length = true) (hr : RegsBounded c r)
    (hc : r.cur < B.length) :
    (∃ r' o, scanPass B r = (r', .ok o) ∧ RegsBounded c r' ∧ r'.n = r.n ∧ ∀ rec ∈ o.toList, rec.wf) ∨
    (∃ r' e, scanPass B r = (r', .error e) ∧ RegsBounded c r' ∧ (e = .malformedLength ∨ e = .truncatedFrame)) := by
  rcases scanPass_cases hc with ⟨b, -, -, h⟩ | ⟨-, -, h⟩ | ⟨-, -, -, h⟩ | ⟨L, -, hL, -, h⟩ | ⟨L, i, w, crc, -, hL, hfit, h⟩
  case inl => exact .inl ⟨_, _, h, hr.set_cur hB hc, rfl, nofun⟩
  case inr.inl => exact .inr ⟨_, _, h, hr, .inr rfl⟩
  case inr.inr.inl => exact .inr ⟨_, _, h, hr, .inl rfl⟩
  case inr.inr.inr.inl =>
    exact .inr ⟨_, _, h, (hr.set_len_of_le hL.le_999).set_tot (Nat.add_le_add_right hL.le_999 9), .inr rfl⟩
  case inr.inr.inr.inr =>
    have hcur : r.cur + L + 1 ≤ B.length := by omega
    have hlen : (slice B r.cur (L + 9)).length = L + 9 := slice_length_of_le (by omega)
    have hrec : (frameRecord (slice B r.cur (L + 9)) L).wf :=
      frameRecord_wf ((hasLength_slice (by omega)).2 hL) (by omega) (by omega)
    exact .inl ⟨_, _, h, ((hr.set_len_of_le hL.le_999).set_tot (Nat.add_le_add_right hL.le_999 9)).set_cur hB hcur, rfl,
      by simpa using hrec⟩

theorem scanLoop_bounded {k : Nat} {r : Regs} {res : List Record} (hB : Config.within c.bufMax B.length = true)
    (hr : RegsBounded c r) (hn : r.n = B.length) (hres : ∀ rec ∈ res, rec.wf) :
    RegsBounded c (scanLoop k B r res).1 ∧
      DeliveryWf (scanLoop k B r res).2.2 (some (.records (scanLoop k B r res).2.1)) := by
  induction k generalizing r res with
  | zero => exact ⟨hr, hres⟩
  | succ k ih =>
    by_cases hc : r.cur < r.n
    · rcases scanPass_bounded hB hr (hn ▸ hc) with ⟨r', o, hp, hr', hn', ho⟩ | ⟨r', e, hp, hr', he⟩
      · rw [scanLoop_of_ok hc hp]
        exact ih hr' (hn'.trans hn) (List.forall_mem_append.2 ⟨hres, ho⟩)
      · rw [scanLoop_of_error hc hp]
        exact ⟨hr', he, hres⟩
    · rw [scanLoop_stop (Nat.le_of_not_lt hc)]
      exact ⟨hr, hres⟩

theorem scanRun_bounded {r : Regs} (hB : Config.within c.bufMax B.length = true) (hr : RegsBounded c r) :
    RegsBounded c (scanRun r B).1 ∧ DeliveryWf (scanRun r B).2.2 (some (.records (scanRun r B).2.1)) :=
  scanLoop_bounded hB ((hr.set_n hB).set_cur hB (Nat.zero_le _)) rfl nofun

end Scan

section ScanEnd
variable (s : State) (x : Regs × List Record × Status)

@[simp] theorem scanEnd_cfg : (scanEnd s x).cfg = s.cfg := by
  obtain ⟨r, res, _ | e⟩ := x <;> rfl

@[simp] theorem scanEnd_out : (scanEnd s x).out = s.out := by
  obtain ⟨r, res, _ | e⟩ := x <;> rfl

end ScanEnd

theorem execScan_keeps_inv {B : List Byte} {s t : State} (hs : s.Inv) (h : execScan B s = .next t) : t.Inv := by
  obtain ⟨hcfg, hout, hsize, hregs, -⟩ := hs
  by_cases hw : (Instr.scan B).wf s.cfg = true
  · rw [execScan_of_wf hw] at h
    cases h
    obtain ⟨hr, hd⟩ := scanRun_bounded hw hregs
    simpa only [State.Inv, scanEnd_cfg, scanEnd_out, scanEnd_regs, scanEnd_status, scanEnd_result] using
      And.intro hcfg ⟨hout, hsize, hr, hd⟩
  · cases h.symm.trans (execScan_of_not_wf hw)

/-! ### The step -/

theorem execCrcUpdate_keeps_inv {st : Half} {b : Byte} {s t : State} (hs : s.Inv)
    (h : execCrcUpdate st b s = .next t) : t.Inv := by
  obtain ⟨hcfg, hout, hsize, hregs, -⟩ := hs
  cases h
  exact ⟨hcfg, hout, hsize, hregs, trivial⟩

theorem exec_keeps_inv {i : Instr} {s t : State} (hs : s.Inv) (h : exec i s = .next t) : t.Inv := by
  cases i with
  | crcUpdate st b => exact execCrcUpdate_keeps_inv hs h
  | encode idxs cmd dat => exact execEncode_keeps_inv hs h
  | decode F => exact execDecode_keeps_inv hs h
  | scan B => exact execScan_keeps_inv hs h

/-- The invariant does not speak of what the caller writes. -/
theorem State.Inv.load {s : State} (hs : s.Inv) (r : Request) : (s.load r).Inv := hs

theorem State.Inv.set_inputs {s : State} (hs : s.Inv) (rest : List Input) : ({ s with inputs := rest } : State).Inv := hs

theorem State.Inv.resetEvent {s : State} (hs : s.Inv) : s.resetEvent.Inv := by
  obtain ⟨hcfg, -⟩ := hs
  exact ⟨hcfg, Memory.fresh_wf 0, Nat.zero_le _, regsBounded_reset _, trivial⟩

theorem State.Inv.abandon {s : State} (hs : s.Inv) (p : Option Request) : (s.abandon p).Inv := by
  rcases s.abandon_cases p with h | ⟨r, -, h⟩ <;> rw [h]
  · exact hs.resetEvent
  · exact (hs.load r).resetEvent

/-- Settles O14: idle steps and calls hand the invariant on to the operation, each operation keeps it, and a reset puts
every bounded field back to its reset value. -/
theorem everyStepKeepsTheInvariant : Obligations.EveryStepKeepsTheInvariant := by
  intro s t hs h
  rcases step_cases h with ⟨-, rfl⟩ | ⟨r, rest, -, hexec⟩ | ⟨p, rest, -, rfl⟩
  · exact hs
  · exact exec_keeps_inv ((hs.set_inputs rest).load r) hexec
  · exact (hs.set_inputs rest).abandon p

end Sys2Proof.Machine
end

section
/-! Proofs that ENCODE builds the frame of 30_encoding R60 (41_encoder R114, R116), wraps the index to one byte (R113), and
rejects a length of 1000 or more (R111). -/

namespace Sys2Proof.Machine

/-- Settles O25: the buffer after the last write is filled with the frame, so its reads are the frame's bytes. -/
theorem encodeBuildsTheFrame : Obligations.EncodeBuildsTheFrame := by
  intro idxs cmd dat v s hw hv hl L i c frame
  obtain ⟨w, hrest⟩ := encodeRest_headWritten v cmd dat s
  refine ⟨_, (execEncode_of_classA hw hv hl).trans (congrArg _ hrest), rfl, rfl, rfl, rfl, encodedFrame_filled_wf ..,
    Memory.read_filled _ _, drawsAfter_eq_ite _ _, rfl, rfl, rfl, rfl⟩

/-- Settles O26: byte 4 of the frame that ENCODE builds is its index byte. -/
theorem encodeWrapsTheIndexToOneByte : Obligations.EncodeWrapsTheIndexToOneByte := by
  intro idxs cmd dat v s hw hv hl
  obtain ⟨t, hexec, hst, hres, -⟩ := encodeBuildsTheFrame idxs cmd dat v s hw hv hl
  exact ⟨_, _, ⟨t, hexec, hst, hres⟩, rfl⟩

/-- Settles O27: the length is compared before anything else is done, and the other two answers of ENCODE have another
status. -/
theorem encodeRejectsLengthOverflow : Obligations.EncodeRejectsLengthOverflow := by
  intro idxs cmd dat s hw
  refine ⟨execEncode_of_overflow hw, fun hl t ht => ?fits⟩
  case fits =>
    obtain ⟨-, ⟨hover, -⟩ | ⟨-, rfl⟩ | ⟨-, v, -, rfl⟩⟩ := execEncode_next ht
    · exact absurd hover hl.not_gt
    · rw [State.raise_status]
      decide
    · obtain ⟨w, hrest⟩ := encodeRest_headWritten v cmd dat s
      rw [hrest]
      exact nofun

end Sys2Proof.Machine
end

section
/-! Proofs that DECODE answers the record of the fixed offsets (42_decoder R131, R134), and a record only when its three
conditions hold (R133). -/

namespace Sys2Proof.Machine

/-- With every read inside the operand and three length digits, the decoder reaches its last step. -/
theorem decodeRun_of_complete {F : List Byte} {L : Nat} {i : Byte} (r : Regs) (h8 : 8 ≤ F.length) (hL : HasLength F 0 L)
    (hlen : L + 4 ≤ F.length) (hi : F[4]? = some i) :
    ∃ w, decodeRun r F =
      ({ r with n := F.length, len := L, idx := i, w := w, crc := crcFold ((F.drop 1).take (F.length - 5)) },
        .ok (frameRecord F L)) := by
  rcases decodeRun_cases r F with ⟨h, -⟩ | ⟨-, h, -⟩ | ⟨-, -, h, -⟩ | ⟨M, -, hM, -, h, -⟩ | ⟨M, j, w, hM, hj, -, -, h⟩
  case inl => omega
  case inr.inl => exact absurd hL (h L)
  case inr.inr.inl => omega
  case inr.inr.inr.inl =>
    obtain rfl := hM.unique hL
    omega
  case inr.inr.inr.inr =>
    obtain rfl := hM.unique hL
    obtain rfl : j = i := Option.some.inj (hj.symm.trans hi)
    exact ⟨w, h⟩

/-- Settles O32: the decoder reaches its last step, which delivers `frameRecord F L` and leaves the registers of the
decoder's run. -/
theorem decodeReturnsTheRecord : Obligations.DecodeReturnsTheRecord := by
  intro F L i s hw h8 hL hlen hi
  obtain ⟨w, hrun⟩ := decodeRun_of_complete s.regs h8 hL hlen hi
  refine ⟨w, (execDecode_of_wf hw).trans ?_⟩
  rw [hrun]
  rfl

theorem delivers_frameRecord {F : List Byte} {L : Nat} {s : State} (hw : (Instr.decode F).wf s.cfg = true)
    (h8 : 8 ≤ F.length) (hL : HasLength F 0 L) (hlen : L + 4 ≤ F.length) :
    Delivers (exec (.decode F) s) .ok (some (.record (frameRecord F L))) := by
  obtain ⟨w, h⟩ := decodeReturnsTheRecord F L F[4] s hw h8 hL hlen (List.getElem?_eq_getElem _)
  exact ⟨_, h, rfl, rfl⟩

/-- A status of OK says that every check of the decoder passed. -/
theorem complete_of_decodeEnd_ok {s : State} {F : List Byte} (h : (decodeEnd s (decodeRun s.regs F)).status = .ok) :
    8 ≤ F.length ∧ ∃ L, HasLength F 0 L ∧ L + 4 ≤ F.length := by
  rcases decodeRun_cases s.regs F with ⟨-, hr⟩ | ⟨-, -, hr⟩ | ⟨L, -, -, hr⟩ | ⟨L, i, -, -, -, hr⟩ |
    ⟨L, i, w, hL, -, h8, hd, -⟩
  case inr.inr.inr.inr => exact ⟨h8, L, hL, by omega⟩
  all_goals
    rw [hr] at h
    cases h

/-- Settles O34: a complete operand is answered by its record, and on any other one the status is an error. -/
theorem decodeSucceedsExactlyWhen : Obligations.DecodeSucceedsExactlyWhen := by
  intro F s hw
  have hexec := execDecode_of_wf hw
  refine ⟨_, hexec, fun ⟨_, hst, _⟩ => complete_of_decodeEnd_ok hst, fun ⟨h8, L, hL, hlen⟩ => ?complete⟩
  case complete =>
    obtain ⟨t, ht, hst, hres⟩ := delivers_frameRecord hw h8 hL hlen
    cases ht.symm.trans hexec
    exact ⟨_, hst, hres⟩

end Sys2Proof.Machine
end

section
/-! Proof that the byte at offset 0 makes no difference to DECODE (42_decoder R136): every read starts at offset 1 or
later, `incoming` too, because it is read only after 8 bytes are known to be there. -/

namespace Sys2Proof.Machine

section Reads
variable (a b : Byte) (F : List Byte)

theorem slice_cons_succ (off n : Nat) : slice (a :: F) (off + 1) n = slice F off n := rfl

theorem memRead_cons_succ (off n : Nat) : memRead (a :: F) (off + 1) n = memRead F off n := by
  simp only [memRead, slice_cons_succ, List.length_cons, Nat.add_right_comm off 1 n, Nat.add_le_add_iff_right]

theorem memReadByte_cons_succ (off : Nat) : memReadByte (a :: F) (off + 1) = memReadByte F off :=
  List.getElem?_cons_succ

theorem readData_cons (len : Nat) : readData (a :: F) len = readData (b :: F) len := by
  simp only [readData, memRead_cons_succ]

theorem recordOf_cons {F : List Byte} (hF : 4 ≤ F.length) (r : Regs) (command data : List Byte) :
    recordOf (a :: F) r command data = recordOf (b :: F) r command data := by
  have e : F.length + 1 - ckBytes = F.length - ckBytes + 1 := Nat.sub_add_comm hF
  simp only [recordOf, List.length_cons, e, slice_cons_succ]

theorem decodeRun_cons (r : Regs) : decodeRun r (a :: F) = decodeRun r (b :: F) := by
  simp only [decodeRun, List.length_cons, memRead_cons_succ, memReadByte_cons_succ, slice_cons_succ, readData_cons a b F]
  cases h : memRead F 4 decCmdLen with
  | none => rfl
  | some command =>
    obtain ⟨h7, -⟩ := (memRead_eq_some_iff _ _ _ _).1 h
    simp only [recordOf_cons a b (Nat.le_of_add_right_le h7)]

end Reads

/-- Settles O35: capacity looks at the operand's length alone, and the decoder's reads leave out offset 0. -/
theorem decodeNeverReadsTheStartMarker : Obligations.DecodeNeverReadsTheStartMarker := by
  intro a b F s
  have hwf : (Instr.decode (a :: F)).wf s.cfg = (Instr.decode (b :: F)).wf s.cfg := rfl
  change execDecode (a :: F) s = execDecode (b :: F) s
  rw [execDecode, execDecode, hwf, decodeRun_cons a b]

end Sys2Proof.Machine
end

section
/-! Proof that DECODE inverts ENCODE as far as it does (42_decoder R137, R138, 95 P1): the record of an encoded frame, field
by field, in the terms of the operands that went in. -/

namespace Sys2Proof.Machine

section Frame
variable {L : Nat} {i : Byte} {cmd dat field : List Byte}

theorem frameBytes_checked (hfield : field.length = 4) :
    ((frameBytes L i cmd dat field).drop 1).take ((frameBytes L i cmd dat field).length - 5) =
      interiorBytes L i cmd dat := by
  have e : (frameBytes L i cmd dat field).length - 5 = (interiorBytes L i cmd dat).length := by
    rw [frameBytes_length, interiorBytes_length]
    omega
  rw [e]
  exact List.take_left' rfl

theorem frameBytes_field (hfield : field.length = 4) :
    (frameBytes L i cmd dat field).drop ((frameBytes L i cmd dat field).length - 4) = field := by
  refine List.drop_left' ?_
  rw [frameBytes_length, List.length_append, interiorBytes_length, List.length_singleton]
  omega

theorem frameBytes_data :
    ((frameBytes L i cmd dat field).drop 8).take (cmd.length + dat.length - 3) = (cmd ++ dat).drop 3 := by
  rw [← frameBytes_content L i cmd dat field, List.drop_take, List.drop_drop]

/-- The decoder's view of a frame whose embedded length is its content's, in the terms of the encoder's view: command and
data are cut out of the content at its third byte, and a shorter content is filled up from what follows it. -/
theorem frameRecord_frameBytes (hL : L = 1 + cmd.length + dat.length) (hfield : field.length = 4) :
    frameRecord (frameBytes L i cmd dat field) L =
      { length := L
        command := ((cmd ++ dat) ++ 0x03#8 :: field).take 3
        data := (cmd ++ dat).drop 3
        checksum := ckText (crcFold (interiorBytes L i cmd dat))
        incoming := field } := by
  have e : L - 4 = cmd.length + dat.length - 3 := by omega
  rw [frameRecord, e, frameBytes_drop_five, frameBytes_data, frameBytes_checked hfield, frameBytes_field hfield]

end Frame

theorem frameRecord_encodedFrame (v : Nat) (cmd dat : List Byte) (pad : Byte) :
    frameRecord (encodedFrame v cmd dat pad) (1 + cmd.length + dat.length) =
      { length := 1 + cmd.length + dat.length
        command := ((cmd ++ dat) ++ 0x03#8 :: ckField (encodedCrc v cmd dat) pad).take 3
        data := (cmd ++ dat).drop 3
        checksum := ckText (encodedCrc v cmd dat)
        incoming := ckField (encodedCrc v cmd dat) pad } :=
  frameRecord_frameBytes rfl (ckField_length _ _)

/-- Settles O37: the record of an encoded frame holds the content `cmd ++ dat` cut at its third byte, and checksum text and
field of one checksum; every clause is this cut for its length of command and data. -/
theorem decodeInvertsEncode : Obligations.DecodeInvertsEncode := by
  intro idxs cmd dat out tag s u hout hw
  obtain ⟨v, pad, -, hL, -, rfl, rfl⟩ := hout.exists_encodedFrame
  have hlen := encodedFrame_length v cmd dat pad
  have hfield := ckField_length (encodedCrc v cmd dat) pad
  have hdel := delivers_frameRecord hw (by omega) (frameBytes_hasLength hL ..) (by omega)
  rw [frameRecord_encodedFrame] at hdel
  have hsplit (h : 3 ≤ cmd.length) (rest : List Byte) :
      ((cmd ++ dat) ++ rest).take 3 = cmd.take 3 ∧ (cmd ++ dat).drop 3 = cmd.drop 3 ++ dat := by
    rw [List.append_assoc, List.take_append_of_le_length h, List.drop_append_of_le_length h]
    exact ⟨rfl, rfl⟩
  refine ⟨_, hdel, rfl, ?commandLength, fun h => ?three, fun h => hsplit h _, fun h => ?content, fun h => ?noData,
    fun _ => rfl, _, rfl, rfl, ?checksum⟩
  case commandLength => exact List.length_take_of_le (by rw [List.length_append, List.length_cons, hfield]; omega)
  case three => simpa [List.take_of_length_le h.le, List.drop_eq_nil_of_le h.le] using hsplit h.ge _
  case content =>
    rw [List.take_append_of_le_length (by rwa [List.length_append])]
    exact List.take_append_drop 3 _
  case noData => exact List.drop_eq_nil_of_le (by rwa [List.length_append])
  case checksum => exact List.take_eq_take_min.symm.trans (ckField_take ..).symm

end Sys2Proof.Machine
end

section
/-! Proof that SCAN follows the walk of its cursor (43_scanner R151 to R153, R155): the walk gives at most one answer, the
scanner's loop gives one, and the registers and fields that no pass writes stay. -/

namespace Sys2Proof.Machine

/-! ### The walk gives at most one answer -/

section Walk
variable {B : List Byte} {p : Nat} {rs rs' : List Record} {st st' : Status}

theorem lt_length_of_byte {b : Byte} (h : B[p]? = some b) : p < B.length := (List.getElem?_eq_some_iff.1 h).1

/-- Past the end the walk stops, and does nothing else. -/
theorem ScanFrom.of_length_le (h : ScanFrom B p rs st) (hp : B.length ≤ p) : rs = [] ∧ st = .ok := by
  cases h with
  | stop => exact ⟨rfl, rfl⟩
  | skip hb | short hb | malformed hb | overrun hb | frame hb => exact absurd (lt_length_of_byte hb) hp.not_gt

/-- At a byte that is no start marker the walk goes on to the next byte, and does nothing else. -/
theorem ScanFrom.of_ne_stx {b : Byte} (h : ScanFrom B p rs st) (hb : B[p]? = some b) (hne : b ≠ 0x02#8) :
    ScanFrom B (p + 1) rs st := by
  cases h with
  | stop hp => exact absurd (lt_length_of_byte hb) hp.not_gt
  | skip _ _ h => exact h
  | short hb' | malformed hb' | overrun hb' | frame hb' => exact absurd (Option.some.inj (hb.symm.trans hb')) hne

/-- At a start marker with fewer than 3 bytes after it the walk ends. -/
theorem ScanFrom.of_short (h : ScanFrom B p rs st) (hb : B[p]? = some 0x02#8) (hs : B.length < p + 4) :
    rs = [] ∧ st = .error .truncatedFrame := by
  cases h with
  | stop hp => exact absurd (lt_length_of_byte hb) hp.not_gt
  | skip hb' hne => exact absurd (Option.some.inj (hb'.symm.trans hb)) hne
  | short | overrun => exact ⟨rfl, rfl⟩
  | malformed _ h4 => exact absurd hs h4.not_gt
  | frame _ hL => exact absurd hs hL.length_le.not_gt

/-- At a start marker without a length the walk ends. -/
theorem ScanFrom.of_malformed (h : ScanFrom B p rs st) (hb : B[p]? = some 0x02#8) (h4 : p + 4 ≤ B.length)
    (hm : ∀ L, ¬ HasLength B p L) : rs = [] ∧ st = .error .malformedLength := by
  cases h with
  | stop hp => exact absurd (lt_length_of_byte hb) hp.not_gt
  | skip hb' hne => exact absurd (Option.some.inj (hb'.symm.trans hb)) hne
  | short _ hs => exact absurd hs h4.not_gt
  | malformed => exact ⟨rfl, rfl⟩
  | overrun _ hL | frame _ hL => exact absurd hL (hm _)

/-- At a start marker whose frame would end beyond the buffer the walk ends. -/
theorem ScanFrom.of_overrun {L : Nat} (h : ScanFrom B p rs st) (hb : B[p]? = some 0x02#8) (hL : HasLength B p L)
    (ho : B.length < p + L + 9) : rs = [] ∧ st = .error .truncatedFrame := by
  cases h with
  | stop hp => exact absurd (lt_length_of_byte hb) hp.not_gt
  | skip hb' hne => exact absurd (Option.some.inj (hb'.symm.trans hb)) hne
  | short | overrun => exact ⟨rfl, rfl⟩
  | malformed _ _ hm => exact absurd hL (hm _)
  | frame _ hM hfit =>
    obtain rfl := hL.unique hM
    exact absurd ho hfit.not_gt

/-- At a whole frame the walk makes its record and goes on behind its embedded length. -/
theorem ScanFrom.of_frame {L : Nat} (h : ScanFrom B p rs st) (hb : B[p]? = some 0x02#8) (hL : HasLength B p L)
    (hfit : p + L + 9 ≤ B.length) :
    ∃ rs', rs = frameRecord ((B.drop p).take (L + 9)) L :: rs' ∧ ScanFrom B (p + L + 1) rs' st := by
  cases h with
  | stop hp => exact absurd (lt_length_of_byte hb) hp.not_gt
  | skip hb' hne => exact absurd (Option.some.inj (hb'.symm.trans hb)) hne
  | short _ hs => exact absurd hs hL.length_le.not_gt
  | malformed _ _ hm => exact absurd hL (hm _)
  | overrun _ hM ho =>
    obtain rfl := hL.unique hM
    exact absurd ho hfit.not_gt
  | frame _ hM _ h =>
    obtain rfl := hL.unique hM
    exact ⟨_, rfl, h⟩

/-- The rules of the walk exclude each other. -/
theorem ScanFrom.unique (h : ScanFrom B p rs st) (h' : ScanFrom B p rs' st') : rs' = rs ∧ st' = st := by
  induction h generalizing rs' with
  | stop hp => exact h'.of_length_le hp
  | skip hb hne _ ih => exact ih (h'.of_ne_stx hb hne)
  | short hb hs => exact h'.of_short hb hs
  | malformed hb h4 hm => exact h'.of_malformed hb h4 hm
  | overrun hb hL ho => exact h'.of_overrun hb hL ho
  | frame hb hL hfit _ ih =>
    obtain ⟨tail, rfl, htail⟩ := h'.of_frame hb hL hfit
    obtain ⟨rfl, rfl⟩ := ih htail
    exact ⟨rfl, rfl⟩

end Walk

/-! ### The loop follows the walk -/

section Loop
variable {B : List Byte} {r : Regs}

/-- A pass takes one step of the walk: its record goes before those of the walk from the cursor it leaves, or it ends the
walk with its error. -/
theorem scanPass_walk (hc : r.cur < B.length) :
    (∃ r' o, scanPass B r = (r', .ok o) ∧ r.cur < r'.cur ∧ r'.n = r.n ∧
      ∀ rs st, ScanFrom B r'.cur rs st → ScanFrom B r.cur (o.toList ++ rs) st) ∨
    (∃ r' e, scanPass B r = (r', .error e) ∧ ScanFrom B r.cur [] (.error e)) := by
  rcases scanPass_cases hc with ⟨b, hb, hne, h⟩ | ⟨hb, hs, h⟩ | ⟨hb, h4, hm, h⟩ | ⟨L, hb, hL, ho, h⟩ |
    ⟨L, i, w, c, hb, hL, hfit, h⟩
  case inl => exact .inl ⟨_, _, h, Nat.lt_succ_self _, rfl, fun _ _ => .skip hb hne⟩
  case inr.inl => exact .inr ⟨_, _, h, .short hb hs⟩
  case inr.inr.inl => exact .inr ⟨_, _, h, .malformed hb h4 hm⟩
  case inr.inr.inr.inl => exact .inr ⟨_, _, h, .overrun hb hL ho⟩
  case inr.inr.inr.inr => exact .inl ⟨_, _, h, by simp only; omega, rfl, fun _ _ => .frame hb hL hfit⟩

/-- With passes enough for the bytes that are left, the loop adds the records of the walk from its cursor and ends with
the walk's status. -/
theorem scanLoop_walk {k : Nat} (res : List Record) (hn : r.n = B.length) (hk : B.length - r.cur ≤ k) :
    ∃ rs, (scanLoop k B r res).2.1 = res ++ rs ∧ ScanFrom B r.cur rs (scanLoop k B r res).2.2 := by
  induction k generalizing r res with
  | zero => exact ⟨[], (List.append_nil _).symm, .stop (by omega)⟩
  | succ k ih =>
    by_cases hc : r.cur < B.length
    · have hlt : r.cur < r.n := by omega
      rcases scanPass_walk hc with ⟨r', o, hp, hcur, hn', hwalk⟩ | ⟨r', e, hp, hwalk⟩
      · obtain ⟨rs, hres, hrs⟩ := ih (res ++ o.toList) (hn'.trans hn) (by omega)
        rw [scanLoop_of_ok hlt hp]
        exact ⟨o.toList ++ rs, by rw [hres, List.append_assoc], hwalk _ _ hrs⟩
      · rw [scanLoop_of_error hlt hp]
        exact ⟨[], (List.append_nil _).symm, hwalk⟩
    · rw [scanLoop_stop (by omega)]
      exact ⟨[], (List.append_nil _).symm, .stop (by omega)⟩

theorem scanRun_walk (r : Regs) (B : List Byte) : ScanFrom B 0 (scanRun r B).2.1 (scanRun r B).2.2 := by
  obtain ⟨rs, hres, hrs⟩ := scanLoop_walk (r := { r with n := B.length, cur := 0 }) [] rfl (Nat.sub_le _ _)
  rwa [scanRun, hres]

/-- The registers that no pass of the scanner writes. -/
def Regs.keptByPass (r : Regs) : Nat × Nat × Tag := (r.n, r.idxv, r.tag)

theorem scanPass_keptByPass (hc : r.cur < B.length) : (scanPass B r).1.keptByPass = r.keptByPass := by
  rcases scanPass_cases hc with ⟨b, -, -, h⟩ | ⟨-, -, h⟩ | ⟨-, -, -, h⟩ | ⟨L, -, -, -, h⟩ | ⟨L, i, w, c, -, -, -, h⟩ <;>
    rw [h] <;> rfl

theorem scanLoop_keptByPass {k : Nat} (res : List Record) (hn : r.n = B.length) :
    (scanLoop k B r res).1.keptByPass = r.keptByPass := by
  induction k generalizing r res with
  | zero => rfl
  | succ k ih =>
    by_cases hc : r.cur < r.n
    · have hkept := scanPass_keptByPass (hn ▸ hc)
      rcases hp : scanPass B r with ⟨r', e | o⟩ <;> rw [hp] at hkept
      · rw [scanLoop_of_error hc hp]
        exact hkept
      · rw [scanLoop_of_ok hc hp]
        exact (ih _ ((congrArg Prod.fst hkept).trans hn)).trans hkept
    · rw [scanLoop_stop (Nat.le_of_not_lt hc)]

theorem scanRun_keptByPass (r : Regs) (B : List Byte) : (scanRun r B).1.keptByPass = (B.length, r.idxv, r.tag) :=
  scanLoop_keptByPass [] rfl

end Loop

section ScanEnd
variable (s : State) (x : Regs × List Record × Status)

@[simp] theorem scanEnd_inputs : (scanEnd s x).inputs = s.inputs := by
  obtain ⟨r, res, _ | e⟩ := x <;> rfl

@[simp] theorem scanEnd_op : (scanEnd s x).op = s.op := by
  obtain ⟨r, res, _ | e⟩ := x <;> rfl

@[simp] theorem scanEnd_ports : (scanEnd s x).ports = s.ports := by
  obtain ⟨r, res, _ | e⟩ := x <;> rfl

end ScanEnd

/-- Settles O38: the loop's records and status are a walk's, and there is no other walk; no pass writes `N`, `IDXV` or
`TAG`, and the end of the scan writes registers, status and result alone. -/
theorem scanFollowsTheCursorWalk : Obligations.ScanFollowsTheCursorWalk := by
  intro B s hw
  have hwalk := scanRun_walk s.regs B
  obtain ⟨hn, hidxv, htag⟩ : (scanRun s.regs B).1.n = B.length ∧ (scanRun s.regs B).1.idxv = s.regs.idxv ∧
      (scanRun s.regs B).1.tag = s.regs.tag := by
    simpa [Regs.keptByPass] using scanRun_keptByPass s.regs B
  refine ⟨_, _, execScan_of_wf hw, scanEnd_result .., fun rs' st' => ?answer, ?_⟩
  case answer =>
    rw [scanEnd_status]
    exact ⟨hwalk.unique, fun ⟨hrs, hst⟩ => hrs ▸ hst ▸ hwalk⟩
  simp [hn, hidxv, htag]

/-- What SCAN delivers is what the walk from offset 0 gives. -/
theorem delivers_scan_iff {B : List Byte} {s : State} {rs : List Record} {st : Status}
    (hw : (Instr.scan B).wf s.cfg = true) :
    Delivers (exec (.scan B) s) st (some (.records rs)) ↔ ScanFrom B 0 rs st := by
  obtain ⟨t, rs', ht, hres, hiff, -⟩ := scanFollowsTheCursorWalk B s hw
  rw [hiff, ht]
  constructor
  · rintro ⟨u, hu, rfl, hrs⟩
    cases hu
    rw [hres] at hrs
    cases hrs
    exact ⟨rfl, rfl⟩
  · rintro ⟨rfl, rfl⟩
    exact ⟨t, rfl, rfl, hres⟩

end Sys2Proof.Machine
end

section
/-! Proofs that a buffer without a start marker gives no record (43_scanner R155), and that DECODE of a slice the scanner
hands over cannot fail (R154). -/

namespace Sys2Proof.Machine

/-- The walk skips any run of bytes that are no start markers. -/
theorem ScanFrom.skip_run {B : List Byte} {p n : Nat} {rs : List Record} {st : Status} (hn : p + n ≤ B.length)
    (hne : ∀ k, k < n → B[p + k]? ≠ some 0x02#8) (h : ScanFrom B (p + n) rs st) : ScanFrom B p rs st := by
  induction n generalizing p with
  | zero => exact h
  | succ n ih =>
    have hp : B[p]? = some B[p] := List.getElem?_eq_getElem (by omega)
    refine .skip hp (fun hb => hne 0 (Nat.succ_pos n) (hp.trans (congrArg some hb))) (ih (by omega) (fun k hk => ?_) ?_)
    · rw [Nat.add_right_comm]
      exact hne (k + 1) (Nat.succ_lt_succ hk)
    · rwa [Nat.add_right_comm]

/-- Settles O40: the walk skips the whole buffer and stops at its end. -/
theorem scanWithoutStartMarkerFindsNothing : Obligations.ScanWithoutStartMarkerFindsNothing := by
  intro B s hw hne
  refine (delivers_scan_iff hw).2 (.skip_run (n := B.length) (Nat.zero_add _).le (fun k _ hk => ?_) (.stop (by simp)))
  exact hne _ (List.mem_of_getElem? hk) rfl

/-- Settles O41: the slice has `LEN + 9` bytes and the length field of the buffer, so the decoder's checks pass and its
offsets from the end are offsets from the start. -/
theorem innerDecodeCannotFail : Obligations.InnerDecodeCannotFail := by
  intro B p L s F hL hfit hw
  have hlen : F.length = L + 9 := slice_length_of_le (by omega)
  have hLF : HasLength F 0 L := (hasLength_slice (by omega)).2 hL
  refine ⟨_, delivers_frameRecord hw (by omega) hLF (by omega), rfl, ?checksum, ?incoming⟩
  case checksum =>
    rw [frameRecord, hlen]
    rfl
  case incoming =>
    rw [frameRecord, hlen]
    exact (List.take_of_length_le (by rw [List.length_drop]; omega)).symm

end Sys2Proof.Machine
end

section
/-! The walk over frames put back to back (43_scanner R152, R156): the bytes of an encoded frame that the scanner looks at,
and how the walk passes a frame. -/

namespace Sys2Proof.Machine

/-! ### The bytes of an encoded frame -/

theorem hexChar_ne_stx : ∀ h : BitVec 4, hexChar h ≠ 0x02#8 := by decide

/-- A checksum text is made of hexadecimal digits and a space. -/
theorem ckText_ne_stx (c : Half) : ∀ b ∈ ckText c, b ≠ 0x02#8 := by
  have hspace : space ≠ 0x02#8 := by decide
  unfold ckText
  split_ifs <;> simp [hexChar_ne_stx, hspace]

/-- Only the last byte of a checksum field can be a start marker, because only that one can be a draw. -/
theorem ckField_ne_stx (c : Half) (pad : Byte) {k : Nat} (hk : k < 3) : (ckField c pad)[k]? ≠ some 0x02#8 := by
  intro h
  obtain ⟨h3, -⟩ := ckText_length_bounds c
  have hmem : 0x02#8 ∈ (ckText c).take 4 := by
    refine List.mem_of_getElem? (i := k) ?_
    rw [← ckField_take c pad, List.getElem?_take_of_lt (by omega), h]
  exact ckText_ne_stx c _ (List.mem_of_mem_take hmem) rfl

/-- What the scanner's walk needs of a frame with embedded length `L`. -/
structure FrameLayout (F : List Byte) (L : Nat) : Prop where
  length_eq : F.length = L + 9
  start_marker : F[0]? = some 0x02#8
  hasLength : HasLength F 0 L
  end_marker : F[L + 4]? = some 0x03#8
  checksum_ne_stx : ∀ k, k < 3 → F[L + 5 + k]? ≠ some 0x02#8

theorem encodedFrame_layout {cmd dat : List Byte} (hl : 1 + cmd.length + dat.length ≤ 999) (v : Nat) (pad : Byte) :
    FrameLayout (encodedFrame v cmd dat pad) (1 + cmd.length + dat.length) where
  length_eq := encodedFrame_length v cmd dat pad
  start_marker := rfl
  hasLength := frameBytes_hasLength hl ..
  end_marker := by simpa [encodedFrame_length] using encodedFrame_end_marker v cmd dat pad
  checksum_ne_stx k hk := by
    have hfield : (encodedFrame v cmd dat pad).drop (1 + cmd.length + dat.length + 5) =
        ckField (encodedCrc v cmd dat) pad := by
      have h := frameBytes_field (L := 1 + cmd.length + dat.length) (i := idxByte v) (cmd := cmd) (dat := dat)
        (ckField_length (encodedCrc v cmd dat) pad)
      rwa [← encodedFrame, encodedFrame_length] at h
    rw [← List.getElem?_drop, hfield]
    exact ckField_ne_stx _ _ hk

theorem BuiltByEncode.exists_layout {F : List Byte} (h : BuiltByEncode F) : ∃ L, FrameLayout F L := by
  obtain ⟨idxs, cmd, dat, s, tag, h⟩ := h
  obtain ⟨v, pad, -, hl, -, -, rfl⟩ := h.exists_encodedFrame
  exact ⟨_, encodedFrame_layout hl v pad⟩

/-! ### The walk in a longer buffer -/

theorem slice_append_left (X Z : List Byte) (p n : Nat) : slice (X ++ Z) (X.length + p) n = slice Z p n := by
  rw [slice, slice, List.drop_length_add_append]

theorem hasLength_append_left (X : List Byte) {Z : List Byte} {p L : Nat} :
    HasLength (X ++ Z) (X.length + p) L ↔ HasLength Z p L := by
  rw [← hasLength_slice le_rfl, slice_append_left, hasLength_slice le_rfl]

/-- The walk over a buffer is the walk over any longer one from where the buffer starts in it. -/
theorem ScanFrom.append_left (X : List Byte) {Z : List Byte} {p : Nat} {rs : List Record} {st : Status}
    (h : ScanFrom Z p rs st) : ScanFrom (X ++ Z) (X.length + p) rs st := by
  have hbyte (p : Nat) : (X ++ Z)[X.length + p]? = Z[p]? := by
    rw [List.getElem?_append_right (Nat.le_add_right _ _), Nat.add_sub_cancel_left]
  have hlen : (X ++ Z).length = X.length + Z.length := List.length_append
  induction h with
  | stop hp => exact .stop (by omega)
  | skip hb hne _ ih => exact .skip ((hbyte _).trans hb) hne ih
  | short hb hs => exact .short ((hbyte _).trans hb) (by omega)
  | malformed hb h4 hm =>
    exact .malformed ((hbyte _).trans hb) (by omega) fun L hL => hm L ((hasLength_append_left X).1 hL)
  | overrun hb hL ho => exact .overrun ((hbyte _).trans hb) ((hasLength_append_left X).2 hL) (by omega)
  | @frame p L _ _ hb hL hfit _ ih =>
    have hslice : ((X ++ Z).drop (X.length + p)).take (L + 9) = (Z.drop p).take (L + 9) := slice_append_left X Z p (L + 9)
    rw [← hslice]
    rw [← Nat.add_assoc, ← Nat.add_assoc] at ih
    exact .frame ((hbyte _).trans hb) ((hasLength_append_left X).2 hL) (by omega) ih

/-! ### A frame at the head of the buffer -/

section Head
variable {F Y : List Byte} {L : Nat} {rs : List Record} {st : Status}

theorem FrameLayout.getElem?_append (hF : FrameLayout F L) {k : Nat} (hk : k < L + 9) : (F ++ Y)[k]? = F[k]? :=
  List.getElem?_append_left (hF.length_eq ▸ hk)

theorem FrameLayout.length_append (hF : FrameLayout F L) : (F ++ Y).length = L + 9 + Y.length := by
  rw [List.length_append, hF.length_eq]

theorem FrameLayout.length_sub (hF : FrameLayout F L) : F.length - 9 = L := by
  rw [hF.length_eq, Nat.add_sub_cancel]

/-- The record of a frame goes before those of the walk from its offset `L + 1`. -/
theorem ScanFrom.frame_head (hF : FrameLayout F L) (h : ScanFrom (F ++ Y) (L + 1) rs st) :
    ScanFrom (F ++ Y) 0 (frameRecord F (F.length - 9) :: rs) st := by
  have hslice : slice (F ++ Y) 0 (L + 9) = F := List.take_left' hF.length_eq
  have hL : HasLength (F ++ Y) 0 L := by
    rw [← hasLength_slice (n := L + 9) (by omega), hslice]
    exact hF.hasLength
  have hfit : 0 + L + 9 ≤ (F ++ Y).length := by
    rw [hF.length_append]
    omega
  have hwalk := ScanFrom.frame ((hF.getElem?_append (by omega)).trans hF.start_marker) hL hfit
    (by rwa [Nat.zero_add])
  rwa [← slice, hslice, ← hF.length_sub] at hwalk

/-- Of the tail from offset `L + 4` on, only the last byte can be a start marker. -/
theorem FrameLayout.tail_ne_stx (hF : FrameLayout F L) {k : Nat} (h4 : L + 4 ≤ k) (h8 : k < L + 8) :
    F[k]? ≠ some 0x02#8 := by
  rcases h4.eq_or_lt with rfl | h5
  · rw [hF.end_marker]
    decide
  · obtain ⟨j, rfl⟩ := Nat.exists_eq_add_of_le (show L + 5 ≤ k from h5)
    exact hF.checksum_ne_stx j (by omega)

/-- The walk over a frame whose offsets `L + 1` to `L + 3` hold no start marker goes on at its last byte. -/
theorem ScanFrom.frame_to_last (hF : FrameLayout F L)
    (hne : ∀ k, F.length - 8 ≤ k → k ≤ F.length - 6 → F[k]? ≠ some 0x02#8) (h : ScanFrom (F ++ Y) (L + 8) rs st) :
    ScanFrom (F ++ Y) 0 (frameRecord F (F.length - 9) :: rs) st := by
  have hlen := hF.length_eq
  refine .frame_head hF (.skip_run (n := 7) ?_ (fun k hk => ?_) h)
  · rw [hF.length_append]
    omega
  · rw [hF.getElem?_append (by omega)]
    by_cases h3 : k < 3
    · exact hne _ (by omega) (by omega)
    · exact hF.tail_ne_stx (by omega) (by omega)

/-- A clean frame gives its record, and the walk goes on as it does over what follows the frame. -/
theorem ScanFrom.clean_frame (hF : FrameLayout F L) (hclean : CleanTail F) (h : ScanFrom Y 0 rs st) :
    ScanFrom (F ++ Y) 0 (frameRecord F (F.length - 9) :: rs) st := by
  obtain ⟨hne, hlast⟩ := hclean
  have hlen := hF.length_eq
  refine .frame_to_last hF hne (.skip_run (n := 1) ?_ (fun k hk => ?_) ?_)
  · rw [hF.length_append]
    omega
  · rw [hF.getElem?_append (by omega)]
    rwa [show L + 8 + k = F.length - 1 by omega]
  · simpa [hlen] using h.append_left F

theorem ScanFrom.clean_frames {Fs : List (List Byte)} (hFs : ∀ F ∈ Fs, BuiltByEncode F) (hclean : ∀ F ∈ Fs, CleanTail F)
    (h : ScanFrom Y 0 rs st) :
    ScanFrom (Fs.flatten ++ Y) 0 ((Fs.map fun F => frameRecord F (F.length - 9)) ++ rs) st := by
  induction Fs with
  | nil => exact h
  | cons F Fs ih =>
    rw [List.forall_mem_cons] at hFs hclean
    obtain ⟨hF, hFs⟩ := hFs
    obtain ⟨hcF, hcFs⟩ := hclean
    obtain ⟨L, hL⟩ := hF.exists_layout
    rw [List.flatten_cons, List.append_assoc]
    exact .clean_frame hL hcF (ih hFs hcFs)

/-! ### A false start in the tail -/

/-- A byte that is no digit among the three after a start marker ends the walk. -/
theorem ScanFrom.malformed_at {B : List Byte} {p j : Nat} {b : Byte} (hp : B[p]? = some 0x02#8) (h4 : p + 4 ≤ B.length)
    (hj : j < 3) (hb : B[p + 1 + j]? = some b) (hd : ¬ IsDigit b) : ScanFrom B p [] (.error .malformedLength) := by
  refine .malformed hp h4 fun L hL => hd ?_
  obtain ⟨x, y, z, hx, hy, hz, hdx, hdy, hdz, -⟩ := hL
  interval_cases j
  · exact Option.some.inj (hb.symm.trans hx) ▸ hdx
  · exact Option.some.inj (hb.symm.trans hy) ▸ hdy
  · exact Option.some.inj (hb.symm.trans hz) ▸ hdz

/-- A false start among the offsets `L + 1` to `L + 3` has the end marker among its three bytes. -/
theorem ScanFrom.false_start_in_content (hF : FrameLayout F L) {k : Nat} (hk : F.length - 8 ≤ k) (hk' : k ≤ F.length - 6)
    (hb : F[k]? = some 0x02#8) :
    ScanFrom (F ++ Y) 0 [frameRecord F (F.length - 9)] (.error .malformedLength) := by
  have hlen := hF.length_eq
  have hlen' := hF.length_append (Y := Y)
  have hstx {j : Nat} (hj : j ≤ k) (h1 : L + 1 ≤ j) (hbj : F[j]? = some 0x02#8) :
      ScanFrom (F ++ Y) j [] (.error .malformedLength) := by
    refine .malformed_at (j := L + 3 - j) (b := 0x03#8) ((hF.getElem?_append (by omega)).trans hbj) (by omega) (by omega)
      ?_ (by decide)
    rw [show j + 1 + (L + 3 - j) = L + 4 by omega, hF.getElem?_append (by omega)]
    exact hF.end_marker
  have h1k : L + 1 ≤ k := by omega
  refine .frame_head hF (Nat.decreasingInduction' (fun j hj h1 ih => ?_) h1k (hstx le_rfl h1k hb))
  by_cases hbj : F[j]? = some 0x02#8
  · exact hstx hj.le h1 hbj
  · refine .skip_run (n := 1) (by omega) (fun i hi => ?_) ih
    obtain rfl : i = 0 := by omega
    rwa [hF.getElem?_append (by omega)]

end Head

end Sys2Proof.Machine
end

section
/-! Proofs of the scanner's completeness (43_scanner R156, 95 P4): where a scan of whole frames ends when a tail is not
clean, and that it finds every frame exactly when all are clean. -/

namespace Sys2Proof.Machine

section FalseStart
variable {F : List Byte} {post : List (List Byte)} {L : Nat}

/-- A false start at the last byte of a frame reads the next frame's start marker as a length digit. -/
theorem ScanFrom.false_start_before_frame (hF : FrameLayout F L) (hpost : post ≠ []) (hbuilt : ∀ G ∈ post, BuiltByEncode G)
    (hb : F[F.length - 1]? = some 0x02#8) :
    ScanFrom (F ++ post.flatten) (L + 8) [] (.error .malformedLength) := by
  obtain ⟨G, post, rfl⟩ := List.exists_cons_of_ne_nil hpost
  obtain ⟨M, hG⟩ := (hbuilt G (List.mem_cons_self ..)).exists_layout
  have hlen := hF.length_eq
  have hlenG := hG.length_eq
  refine .malformed_at (j := 0) (b := 0x02#8) ?stx ?fits (by decide) ?next (by decide)
  case stx =>
    rw [hF.getElem?_append (by omega)]
    rwa [show L + 8 = F.length - 1 by omega]
  case fits =>
    rw [hF.length_append, List.flatten_cons, hG.length_append]
    omega
  case next =>
    rw [List.getElem?_append_right (by omega), List.flatten_cons, show L + 8 + 1 + 0 - F.length = 0 by omega,
      hG.getElem?_append (by omega)]
    exact hG.start_marker

/-- A false start at the last byte of the buffer has no byte after it. -/
theorem ScanFrom.false_start_at_end (hF : FrameLayout F L) (hb : F[F.length - 1]? = some 0x02#8) :
    ScanFrom (F ++ []) (L + 8) [] (.error .truncatedFrame) := by
  have hlen := hF.length_eq
  rw [List.append_nil]
  refine .short ?_ (by omega)
  rwa [show L + 8 = F.length - 1 by omega]

theorem last_of_not_cleanTail (hu : ¬ CleanTail F)
    (hne : ∀ k, F.length - 8 ≤ k → k ≤ F.length - 6 → F[k]? ≠ some 0x02#8) : F[F.length - 1]? = some 0x02#8 :=
  of_not_not fun h => hu ⟨hne, h⟩

/-- The walk over an unclean frame when another frame follows or the false start is in the content. -/
theorem ScanFrom.unclean_frame (hF : FrameLayout F L) (hu : ¬ CleanTail F) (hbuilt : ∀ G ∈ post, BuiltByEncode G)
    (h : post ≠ [] ∨ ∃ k, F.length - 8 ≤ k ∧ k ≤ F.length - 6 ∧ F[k]? = some 0x02#8) :
    ScanFrom (F ++ post.flatten) 0 [frameRecord F (F.length - 9)] (.error .malformedLength) := by
  by_cases hc : ∃ k, F.length - 8 ≤ k ∧ k ≤ F.length - 6 ∧ F[k]? = some 0x02#8
  · obtain ⟨k, hk, hk', hb⟩ := hc
    exact .false_start_in_content hF hk hk' hb
  · have hne : ∀ k, F.length - 8 ≤ k → k ≤ F.length - 6 → F[k]? ≠ some 0x02#8 :=
      fun k hk hk' hb => hc ⟨k, hk, hk', hb⟩
    exact .frame_to_last hF hne
      (.false_start_before_frame hF (h.resolve_right hc) hbuilt (last_of_not_cleanTail hu hne))

/-- The walk over an unclean frame that ends the buffer, when the content holds no false start. -/
theorem ScanFrom.unclean_last_frame (hF : FrameLayout F L) (hu : ¬ CleanTail F)
    (hne : ∀ k, F.length - 8 ≤ k → k ≤ F.length - 6 → F[k]? ≠ some 0x02#8) :
    ScanFrom (F ++ []) 0 [frameRecord F (F.length - 9)] (.error .truncatedFrame) :=
  .frame_to_last hF hne (.false_start_at_end hF (last_of_not_cleanTail hu hne))

theorem ScanFrom.exists_error_of_unclean_frame (hF : FrameLayout F L) (hu : ¬ CleanTail F)
    (hbuilt : ∀ G ∈ post, BuiltByEncode G) :
    ∃ e, ScanFrom (F ++ post.flatten) 0 [frameRecord F (F.length - 9)] (.error e) := by
  by_cases h : post ≠ [] ∨ ∃ k, F.length - 8 ≤ k ∧ k ≤ F.length - 6 ∧ F[k]? = some 0x02#8
  · exact ⟨_, .unclean_frame hF hu hbuilt h⟩
  · obtain ⟨hpost, hne⟩ := not_or.1 h
    obtain rfl := of_not_not hpost
    exact ⟨_, .unclean_last_frame hF hu fun k hk hk' hb => hne ⟨k, hk, hk', hb⟩⟩

end FalseStart

/-- Settles O43: the walk passes the clean frames before `F`, makes the record of `F`, and meets the first start marker in
its tail. -/
theorem scanStopsAtTheFirstFalseStart : Obligations.ScanStopsAtTheFirstFalseStart := by
  intro pre post F s hbuilt hclean hu hw rs
  rw [List.forall_mem_append, List.forall_mem_cons] at hbuilt
  obtain ⟨hpre, hF, hpost⟩ := hbuilt
  obtain ⟨L, hL⟩ := hF.exists_layout
  have hscan {e : CodecError} (h : ScanFrom (F ++ post.flatten) 0 [frameRecord F (F.length - 9)] (.error e)) :
      Delivers (exec (.scan (pre ++ F :: post).flatten) s) (.error e) (some (.records rs)) := by
    rw [delivers_scan_iff hw]
    simpa [rs] using h.clean_frames hpre hclean
  refine ⟨fun h => hscan (.unclean_frame hL hu hpost h), ?last⟩
  case last =>
    rintro ⟨rfl, hne⟩
    exact hscan (.unclean_last_frame hL hu hne)

/-- The walk over frames of which one is not clean ends with an error. -/
theorem ScanFrom.exists_error {Fs : List (List Byte)} (hFs : ∀ F ∈ Fs, BuiltByEncode F)
    (hu : ∃ F ∈ Fs, ¬ CleanTail F) : ∃ rs e, ScanFrom Fs.flatten 0 rs (.error e) := by
  induction Fs with
  | nil => simp at hu
  | cons F Fs ih =>
    rw [List.forall_mem_cons] at hFs
    obtain ⟨hF, hFs⟩ := hFs
    obtain ⟨L, hL⟩ := hF.exists_layout
    by_cases hc : CleanTail F
    · obtain ⟨rs, e, h⟩ := ih hFs (by simpa [hc] using hu)
      exact ⟨_, e, h.clean_frame hL hc⟩
    · obtain ⟨e, h⟩ := ScanFrom.exists_error_of_unclean_frame hL hc hFs
      exact ⟨_, e, h⟩

/-- Settles O42: the walk passes clean frames up to the end of the buffer; a frame that is not clean ends it with an error
before. -/
theorem scanFindsAllFramesIffTailsAreClean : Obligations.ScanFindsAllFramesIffTailsAreClean := by
  intro Fs s hFs hw
  constructor
  · intro hdel
    by_contra hu
    obtain ⟨rs, e, herror⟩ := ScanFrom.exists_error hFs (by simpa using hu)
    obtain ⟨-, hst⟩ := herror.unique ((delivers_scan_iff hw).1 hdel)
    cases hst
  · intro hclean
    rw [delivers_scan_iff hw]
    simpa using ScanFrom.clean_frames (Y := []) hFs hclean (.stop le_rfl)

end Sys2Proof.Machine
end

section
/-! Proof that DECODE does not compare the checksum (60 R180, 42_decoder R135, 95 P7): of the last 4 bytes only `incoming`
is made, and every other read of a complete operand ends before them. -/

namespace Sys2Proof.Machine

section Appended
variable {P q : List Byte} {L : Nat}

theorem HasLength.append_right (h : HasLength P 0 L) (q : List Byte) : HasLength (P ++ q) 0 L := by
  have hslice : slice (P ++ q) 0 P.length = P := List.take_left
  rwa [← hasLength_slice (n := P.length) h.length_le, hslice]

theorem take_drop_append {off n : Nat} (h : off + n ≤ P.length) (q : List Byte) :
    ((P ++ q).drop off).take n = (P.drop off).take n := by
  rw [List.drop_append_of_le_length (by omega), List.take_append_of_le_length (by rw [List.length_drop]; omega)]

theorem append_checked (hq : q.length = 4) (hP : 1 ≤ P.length) :
    ((P ++ q).drop 1).take ((P ++ q).length - 5) = P.drop 1 := by
  rw [List.drop_append_of_le_length hP]
  refine List.take_left' ?_
  rw [List.length_drop, List.length_append, hq]
  omega

theorem append_incoming (hq : q.length = 4) : (P ++ q).drop ((P ++ q).length - 4) = q := by
  rw [List.length_append, hq]
  exact List.drop_left' rfl

/-- The record of an operand whose data ends before the last 4 bytes `q`: `q` is its `incoming` and stands in no other
field. -/
theorem frameRecord_append (hq : q.length = 4) (h8 : 8 ≤ P.length) (hlen : L + 4 ≤ P.length) :
    frameRecord (P ++ q) L =
      { length := L
        command := (P.drop 5).take 3
        data := (P.drop 8).take (L - 4)
        checksum := ckText (crcFold (P.drop 1))
        incoming := q } := by
  rw [frameRecord, take_drop_append (by omega), take_drop_append (by omega), append_checked hq (by omega),
    append_incoming hq]

end Appended

/-- Settles O36: the operand `P ++ q` is complete whatever `q` is, and its record has `q` in `incoming` alone. -/
theorem checksumMismatchIsNoError : Obligations.ChecksumMismatchIsNoError := by
  intro P q L s hw hq h8 hL hlen
  rw [← frameRecord_append hq h8 hlen]
  have hle : P.length ≤ (P ++ q).length := by simp
  exact delivers_frameRecord hw (h8.trans hle) (hL.append_right q) (hlen.trans hle)

end Sys2Proof.Machine
end

section
/-! What each operation answers when it answers a next state: the caller's side and the registers it leaves alone
(10_state R21, 20_memory R43, R45), and the status with its result fields (10_state R30, 30_encoding R73). -/

namespace Sys2Proof.Machine

/-! ### The next state of each operation -/

section Next
variable {s t : State}

theorem execDecode_next {F : List Byte} (h : execDecode F s = .next t) :
    (Instr.decode F).wf s.cfg = true ∧ t = decodeEnd s (decodeRun s.regs F) := by
  by_cases hw : (Instr.decode F).wf s.cfg = true
  · cases h.symm.trans (execDecode_of_wf hw)
    exact ⟨hw, rfl⟩
  · cases h.symm.trans (execDecode_of_not_wf hw)

theorem execScan_next {B : List Byte} (h : execScan B s = .next t) :
    (Instr.scan B).wf s.cfg = true ∧ t = scanEnd s (scanRun s.regs B) := by
  by_cases hw : (Instr.scan B).wf s.cfg = true
  · cases h.symm.trans (execScan_of_wf hw)
    exact ⟨hw, rfl⟩
  · cases h.symm.trans (execScan_of_not_wf hw)

end Next

section DecodeEnd
variable (s : State) (x : Regs × Except CodecError Record)

@[simp] theorem decodeEnd_regs : (decodeEnd s x).regs = x.1 := by
  obtain ⟨r, _ | _⟩ := x <;> rfl

@[simp] theorem decodeEnd_out : (decodeEnd s x).out = s.out := by
  obtain ⟨r, _ | _⟩ := x <;> rfl

@[simp] theorem decodeEnd_draws : (decodeEnd s x).draws = s.draws := by
  obtain ⟨r, _ | _⟩ := x <;> rfl

end DecodeEnd

/-! ### The caller's side -/

/-- What the caller writes, and the parameters. -/
def State.callerSide (s : State) : Operands × BitVec 2 × List Input × Config := (s.ports, s.op, s.inputs, s.cfg)

theorem encodeRest_callerSide (v : Nat) (cmd dat : List Byte) (s : State) :
    (encodeRest v cmd dat s).callerSide = s.callerSide := rfl

theorem decodeEnd_callerSide (s : State) (x : Regs × Except CodecError Record) :
    (decodeEnd s x).callerSide = s.callerSide := by
  obtain ⟨r, _ | _⟩ := x <;> rfl

theorem scanEnd_callerSide (s : State) (x : Regs × List Record × Status) :
    (scanEnd s x).callerSide = s.callerSide := by
  simp [State.callerSide]

theorem exec_callerSide {i : Instr} {s t : State} (h : exec i s = .next t) : t.callerSide = s.callerSide := by
  cases i with
  | crcUpdate st b => cases h; rfl
  | encode idxs cmd dat =>
    obtain ⟨-, ⟨-, rfl⟩ | ⟨-, rfl⟩ | ⟨-, v, -, rfl⟩⟩ := execEncode_next h
    · rfl
    · rfl
    · exact encodeRest_callerSide ..
  | decode F =>
    obtain ⟨-, rfl⟩ := execDecode_next h
    exact decodeEnd_callerSide ..
  | scan B =>
    obtain ⟨-, rfl⟩ := execScan_next h
    exact scanEnd_callerSide ..

/-- Settles O8: no operation changes the caller's side, and that is these four fields. -/
theorem operationsLeaveTheCallersSideAlone : Obligations.OperationsLeaveTheCallersSideAlone := by
  intro i s t h
  simpa only [State.callerSide, Prod.mk.injEq] using exec_callerSide h

/-! ### The registers -/

theorem execEncode_keeps_cur_n {idxs cmd dat : List Byte} {s t : State} (h : execEncode idxs cmd dat s = .next t) :
    t.regs.cur = s.regs.cur ∧ t.regs.n = s.regs.n := by
  obtain ⟨-, ⟨-, rfl⟩ | ⟨-, rfl⟩ | ⟨-, v, -, rfl⟩⟩ := execEncode_next h
  · exact ⟨rfl, rfl⟩
  · exact ⟨rfl, rfl⟩
  · obtain ⟨w, hrest⟩ := encodeRest_headWritten v cmd dat s
    rw [hrest]
    exact ⟨rfl, rfl⟩

theorem decodeRun_regs (r : Regs) (F : List Byte) :
    ∃ w c l i n, (decodeRun r F).1 = { r with w := w, crc := c, len := l, idx := i, n := n } := by
  rcases decodeRun_cases r F with ⟨-, h⟩ | ⟨-, -, h⟩ | ⟨L, -, -, h⟩ | ⟨L, i, -, -, -, h⟩ | ⟨L, i, w, -, -, -, -, h⟩ <;>
    rw [h] <;> exact ⟨_, _, _, _, _, rfl⟩

theorem scanRun_keeps_idxv_tag (r : Regs) (B : List Byte) :
    (scanRun r B).1.idxv = r.idxv ∧ (scanRun r B).1.tag = r.tag := by
  have h := scanRun_keptByPass r B
  simp only [Regs.keptByPass, Prod.mk.injEq] at h
  exact h.2

/-- Settles O9: operation by operation, from the next state it answers; an unchanged `OUT` has unchanged reads. -/
theorem eachOperationWritesItsOwnRegisters : Obligations.EachOperationWritesItsOwnRegisters := by
  refine ⟨fun st b s t h => ?crcUpdate, fun _ _ _ _ _ => execEncode_keeps_cur_n, fun F s t h => ?decode,
    fun B s t h => ?scan⟩
  case crcUpdate =>
    cases h
    exact ⟨⟨_, rfl⟩, rfl, fun _ => rfl, rfl⟩
  case decode =>
    obtain ⟨-, rfl⟩ := execDecode_next h
    simpa using decodeRun_regs s.regs F
  case scan =>
    obtain ⟨-, rfl⟩ := execScan_next h
    simpa using scanRun_keeps_idxv_tag s.regs B

/-! ### The status and the result -/

section Answer
variable {s t : State}

/-- ENCODE ends with OK, or with one of its two errors and no result. -/
theorem execEncode_answer {idxs cmd dat : List Byte} (h : execEncode idxs cmd dat s = .next t) :
    t.status = .ok ∨ (t.status = .error .formatError ∨ t.status = .error .lengthOverflow) ∧ t.result = none := by
  obtain ⟨-, ⟨-, rfl⟩ | ⟨-, rfl⟩ | ⟨-, v, -, rfl⟩⟩ := execEncode_next h
  · exact .inr ⟨.inr rfl, rfl⟩
  · exact .inr ⟨.inl rfl, rfl⟩
  · exact .inl rfl

/-- DECODE ends with OK, or with one of its two errors and no result. -/
theorem execDecode_answer {F : List Byte} (h : execDecode F s = .next t) :
    t.status = .ok ∨ (t.status = .error .malformedLength ∨ t.status = .error .truncatedFrame) ∧ t.result = none := by
  obtain ⟨-, rfl⟩ := execDecode_next h
  rcases decodeRun_cases s.regs F with ⟨-, h⟩ | ⟨-, -, h⟩ | ⟨L, -, -, h⟩ | ⟨L, i, -, -, -, h⟩ | ⟨L, i, w, -, -, -, -, h⟩ <;>
    rw [h]
  case inr.inl => exact .inr ⟨.inl rfl, rfl⟩
  case inr.inr.inr.inr => exact .inl rfl
  all_goals exact .inr ⟨.inr rfl, rfl⟩

theorem ScanFrom.status_values {B : List Byte} {p : Nat} {rs : List Record} {st : Status} (h : ScanFrom B p rs st) :
    st = .ok ∨ st = .error .malformedLength ∨ st = .error .truncatedFrame := by
  induction h with
  | stop _ => exact .inl rfl
  | skip _ _ _ ih => exact ih
  | short _ _ => exact .inr (.inr rfl)
  | malformed _ _ _ => exact .inr (.inl rfl)
  | overrun _ _ _ => exact .inr (.inr rfl)
  | frame _ _ _ _ ih => exact ih

/-- SCAN ends with OK or one of its two errors, and delivers its records with either. -/
theorem execScan_answer {B : List Byte} (h : execScan B s = .next t) :
    (t.status = .ok ∨ t.status = .error .malformedLength ∨ t.status = .error .truncatedFrame) ∧
      ∃ rs, t.result = some (.records rs) := by
  obtain ⟨-, rfl⟩ := execScan_next h
  rw [scanEnd_status]
  exact ⟨(scanRun_walk s.regs B).status_values, _, scanEnd_result ..⟩

end Answer

/-- Settles O10: an error of ENCODE or DECODE comes with no result, SCAN always delivers records, and CRC_UPDATE ends with
OK. -/
theorem errorsDeliverNothingButScannedRecords : Obligations.ErrorsDeliverNothingButScannedRecords := by
  intro i s t e h hst
  cases i with
  | crcUpdate st b =>
    cases h
    cases hst
  | encode idxs cmd dat =>
    refine ⟨nofun, fun _ => ?_, nofun⟩
    rcases execEncode_answer h with hok | ⟨-, hres⟩
    · cases hok.symm.trans hst
    · exact hres
  | decode F =>
    refine ⟨nofun, fun _ => ?_, nofun⟩
    rcases execDecode_answer h with hok | ⟨-, hres⟩
    · cases hok.symm.trans hst
    · exact hres
  | scan B => exact ⟨nofun, fun hno => absurd rfl (hno B), fun _ => (execScan_answer h).2⟩

/-- Settles O11: each operation's status is among those of its answers. -/
theorem statusValuesOfEachOperation : Obligations.StatusValuesOfEachOperation := by
  intro i s t h
  cases i with
  | crcUpdate st b =>
    cases h
    rfl
  | encode idxs cmd dat => exact (execEncode_answer h).imp_right And.left
  | decode F => exact (execDecode_answer h).imp_right And.left
  | scan B => exact (execScan_answer h).1

end Sys2Proof.Machine
end

section
/-! Proof of the checksum's text, tag and field in the three cases by value (40_checksum R92 to R94). -/

namespace Sys2Proof.Machine

/-- A hexadecimal digit of the checksum, from the checksum's value. -/
theorem hexChar_extractLsb' (c : Half) (k : Nat) :
    hexChar (c.extractLsb' k 4) =
      if c.toNat / 2 ^ k % 16 ≤ 9 then BitVec.ofNat 8 (0x30 + c.toNat / 2 ^ k % 16)
      else BitVec.ofNat 8 (0x61 + (c.toNat / 2 ^ k % 16 - 10)) := by
  rw [hexChar, BitVec.extractLsb'_toNat, Nat.shiftRight_eq_div_pow]

/-- Settles O21: the case by value decides text, tag and field at once, and each character of the text is the digit of the
checksum at its bit position; the topmost digit needs no remainder. -/
theorem checksumTextTagAndField : Obligations.ChecksumTextTagAndField := by
  intro c pad hex h3 h2 h1 h0
  have htop : c.toNat / 4096 % 16 = c.toNat / 4096 := by have := c.isLt; omega
  have e3 : hexChar (c.extractLsb' 12 4) = h3 := by simp [hexChar_extractLsb', h3, hex, htop]
  have e2 : hexChar (c.extractLsb' 8 4) = h2 := hexChar_extractLsb' c 8
  have e1 : hexChar (c.extractLsb' 4 4) = h1 := hexChar_extractLsb' c 4
  have e0 : hexChar (c.extractLsb' 0 4) = h0 := by simp [hexChar_extractLsb', h0, hex]
  refine ⟨fun hs => ?short, fun hf hf' => ?fits, fun ht => ?truncated⟩
  case short =>
    have n4 : ¬ 0x1000 ≤ c.toNat := by omega
    have n3 : ¬ 0x0100 ≤ c.toNat := by omega
    simp [ckField, ckTag, ckText, ckBytes, space, n4, n3, e1, e0]
  case fits =>
    have n4 : ¬ 0x1000 ≤ c.toNat := by omega
    simp [ckField, ckTag, ckText, ckBytes, space, n4, hf, e2, e1, e0]
  case truncated => simp [ckField, ckTag, ckText, ckBytes, space, ht, e3, e2, e1, e0]

end Sys2Proof.Machine
end

section
/-! Proofs that ENCODE raises FormatError exactly for an index string without a digit (41_encoder R112, 60 R171), and
answers exactly outside class C (60 R184). -/

namespace Sys2Proof.Machine

theorem idxParse_of_mixed (limit : Option Nat) {S : List Byte} (hd : ∃ b ∈ S, IsDigit b) (hn : ∃ b ∈ S, ¬ IsDigit b) :
    idxParse limit S = .mixed := by
  have hany : S.any isDigit = true := by simpa [isDigit_iff] using hd
  have hall : ¬ S.all isDigit = true := by simpa [isDigit_iff, -not_and] using hn
  rw [idxParse, if_pos hany, if_neg hall]

theorem idxParse_of_tooLarge {limit : Option Nat} {S : List Byte} (hne : S ≠ []) (hd : ∀ b ∈ S, IsDigit b)
    (hlim : ∃ m, limit = some m ∧ m < decimalValue S) : idxParse limit S = .tooLarge := by
  obtain ⟨b, hb⟩ := List.exists_mem_of_ne_nil S hne
  obtain ⟨m, hm, hlt⟩ := hlim
  have hany : S.any isDigit = true := List.any_eq_true.2 ⟨b, hb, (isDigit_iff b).2 (hd b hb)⟩
  have hall : S.all isDigit = true := List.all_eq_true.2 fun b hb => (isDigit_iff b).2 (hd b hb)
  have hover : ¬ Config.within limit (decValue S) = true := by
    rw [within_iff, decValue_eq]
    exact fun h => (h m hm).not_gt hlt
  rw [idxParse, if_pos hany, if_pos hall, if_neg hover]

section Encode
variable {idxs cmd dat : List Byte} {s t : State}

section Fits
variable (hw : (Instr.encode idxs cmd dat).wf s.cfg = true) (hl : 1 + cmd.length + dat.length ≤ 999)
include hw hl

theorem execEncode_of_classB (hB : ClassB idxs) :
    execEncode idxs cmd dat s = .next ((s.headWritten (1 + cmd.length + dat.length)).raise .formatError none) := by
  rw [execEncode_of_wf hw, encodeRun_of_le hl.not_gt, (idxParse_nonNumeric_iff _ _).2 hB]
  rfl

theorem execEncode_of_mixed (hp : idxParse s.cfg.idxIntMax idxs = .mixed) :
    execEncode idxs cmd dat s = .refused .indexMixed := by
  rw [execEncode_of_wf hw, encodeRun_of_le hl.not_gt, hp]

theorem execEncode_of_tooLarge (hp : idxParse s.cfg.idxIntMax idxs = .tooLarge) :
    execEncode idxs cmd dat s = .refused .indexTooLarge := by
  rw [execEncode_of_wf hw, encodeRun_of_le hl.not_gt, hp]

end Fits

theorem headWritten_read (s : State) (len a : Nat) : (s.headWritten len).out.read a = (0x02#8 :: lenText len)[a]? := by
  rw [State.headWritten, encodeHead_eq, Memory.read_filled]
  rfl

/-- FormatError comes from the parse of a class B index, which is made when the length fits. -/
theorem classB_of_formatError (h : execEncode idxs cmd dat s = .next t) (hst : t.status = .error .formatError) :
    ClassB idxs ∧ 1 + cmd.length + dat.length ≤ 999 := by
  rcases execEncode_cases idxs cmd dat s with ⟨-, he⟩ | ⟨-, -, he⟩ | ⟨-, hl, hp, -⟩ | ⟨-, -, -, he⟩ | ⟨-, -, -, he⟩ |
    ⟨v, -, -, -, he⟩
  case inr.inr.inl => exact ⟨(idxParse_nonNumeric_iff _ _).1 hp, hl⟩
  all_goals cases h.symm.trans he <;> cases hst

/-- Within capacity, ENCODE answers a next state exactly when the length overflows or the index is of class A or B. -/
theorem execEncode_answers_iff (hw : (Instr.encode idxs cmd dat).wf s.cfg = true) :
    (∃ t, execEncode idxs cmd dat s = .next t) ↔
      999 < 1 + cmd.length + dat.length ∨ (∃ v, ClassA s.cfg.idxIntMax idxs v) ∨ ClassB idxs := by
  constructor
  · rintro ⟨t, h⟩
    rcases execEncode_cases idxs cmd dat s with ⟨-, he⟩ | ⟨-, hl, -⟩ | ⟨-, -, hp, -⟩ | ⟨-, -, -, he⟩ | ⟨-, -, -, he⟩ |
      ⟨v, -, -, hp, -⟩
    case inr.inl => exact .inl hl
    case inr.inr.inl => exact .inr (.inr ((idxParse_nonNumeric_iff _ _).1 hp))
    case inr.inr.inr.inr.inr => exact .inr (.inl ⟨v, (idxParse_value_iff _ _ _).1 hp⟩)
    all_goals cases h.symm.trans he
  · intro h
    rcases lt_or_ge 999 (1 + cmd.length + dat.length) with hover | hl
    · exact ⟨_, execEncode_of_overflow hw hover⟩
    · rcases h with hover | ⟨v, hA⟩ | hB
      · exact absurd hover hl.not_gt
      · exact ⟨_, execEncode_of_classA hw hA hl⟩
      · exact ⟨_, execEncode_of_classB hw hl hB⟩

end Encode

/-- Settles O28: a class B index ends ENCODE with what its steps 1 to 4 left, and no other answer has that status. -/
theorem encodeRaisesFormatError : Obligations.EncodeRaisesFormatError := by
  refine ⟨fun idxs cmd dat s hw hB hl => ?raises, fun _ _ _ _ _ => classB_of_formatError⟩
  case raises =>
    exact ⟨_, execEncode_of_classB hw hl hB, rfl, rfl, rfl, headWritten_read s _, rfl, rfl, rfl, rfl, rfl⟩

/-- Settles O29: the parse answers mixed and too large digit strings under their own names, and refuses nothing else. -/
theorem encodeAnswersExactlyOutsideClassC : Obligations.EncodeAnswersExactlyOutsideClassC := by
  intro idxs cmd dat s hw
  exact ⟨execEncode_answers_iff hw, fun hl hd hn => execEncode_of_mixed hw hl (idxParse_of_mixed _ hd hn),
    fun hl hne hd hlim => execEncode_of_tooLarge hw hl (idxParse_of_tooLarge hne hd hlim)⟩

end Sys2Proof.Machine
end

section
/-! Proof that the first failed check decides DECODE's error (42_decoder R132). -/

namespace Sys2Proof.Machine

section Checks
variable {F : List Byte} {L : Nat} (r : Regs)

theorem decodeRun_of_lt_four (h : F.length < 4) : (decodeRun r F).2 = .error .truncatedFrame := by
  rw [decodeRun, (memRead_eq_none_iff F 1 3).2 (by omega)]

theorem decodeRun_of_no_length (h4 : 4 ≤ F.length) (hno : ∀ L, ¬ HasLength F 0 L) :
    (decodeRun r F).2 = .error .malformedLength := by
  rcases decodeRun_cases r F with ⟨h, -⟩ | ⟨-, -, h⟩ | ⟨M, hM, -⟩ | ⟨M, i, hM, -⟩ | ⟨M, i, w, hM, -⟩
  case inl => omega
  case inr.inl => rw [h]
  all_goals exact absurd hM (hno M)

/-- With three length digits, a read past the end of the operand is the only error left. -/
theorem decodeRun_of_incomplete (hL : HasLength F 0 L) (hs : F.length < 8 ∨ 4 < L ∧ F.length < L + 4) :
    (decodeRun r F).2 = .error .truncatedFrame := by
  rcases decodeRun_cases r F with ⟨-, h⟩ | ⟨-, hno, -⟩ | ⟨M, -, -, h⟩ | ⟨M, i, -, -, -, h⟩ | ⟨M, i, w, hM, -, h8, hfit, -⟩
  case inr.inl => exact absurd hL (hno L)
  case inr.inr.inr.inr =>
    obtain rfl := hM.unique hL
    omega
  all_goals rw [h]

end Checks

theorem delivers_decode_error {F : List Byte} {s : State} {e : CodecError} (hw : (Instr.decode F).wf s.cfg = true)
    (h : (decodeRun s.regs F).2 = .error e) : Delivers (exec (.decode F) s) (.error e) none := by
  rcases hx : decodeRun s.regs F with ⟨r, y⟩
  obtain rfl : y = .error e := (congrArg Prod.snd hx).symm.trans h
  exact ⟨_, execDecode_of_wf hw, by rw [hx]; rfl, by rw [hx]; rfl⟩

/-- Settles O33: each condition decides the error of the decoder's run, from any registers. -/
theorem decodeReportsTheFirstFailedCheck : Obligations.DecodeReportsTheFirstFailedCheck := by
  intro F s hw
  exact ⟨fun h => delivers_decode_error hw (decodeRun_of_lt_four _ h),
    fun h4 hno => delivers_decode_error hw (decodeRun_of_no_length _ h4 hno),
    fun _ hL h8 => delivers_decode_error hw (decodeRun_of_incomplete _ hL (.inl h8)),
    fun _ hL _ h4 hlen => delivers_decode_error hw (decodeRun_of_incomplete _ hL (.inr ⟨h4, hlen⟩))⟩

end Sys2Proof.Machine
end

section
/-! Proofs about the block as a whole: idle steps, calls and resets (10_state R29, 30_encoding R72, 70 R190 to R192), the
codes, and the refusal of operands over capacity (60 R184). -/

namespace Sys2Proof.Machine

section Step
variable {s : State} {rest : List Input}

theorem step_of_no_input (h : s.inputs = []) : step s = .next s := by
  unfold step
  rw [h]

theorem step_of_call {r : Request} (h : s.inputs = .call r :: rest) :
    step s = exec (decode r.op r.operands) (({ s with inputs := rest } : State).load r) := by
  unfold step
  rw [h]
  rfl

theorem step_of_reset {p : Option Request} (h : s.inputs = .reset p :: rest) :
    step s = .next (({ s with inputs := rest } : State).abandon p) := by
  unfold step
  rw [h]

end Step

theorem Memory.read_fresh (size a : Nat) : (Memory.fresh size).read a = none := rfl

theorem decode_encode (i : Instr) : decode (encode i).op (encode i).operands = i := by
  cases i with
  | crcUpdate st b => exact Laws.EncodeDecode.crcUpdate st b
  | encode idxs cmd dat => exact Laws.EncodeDecode.encode idxs cmd dat
  | decode F => exact Laws.EncodeDecode.decode F
  | scan B => exact Laws.EncodeDecode.scan B

/-- Settles O1: the reset state is fresh, and a step with no input takes the idle branch. -/
theorem resetLeavesBlockIdle : Obligations.ResetLeavesBlockIdle :=
  ⟨rfl, rfl, Memory.read_fresh 0, fun _ => step_of_no_input⟩

/-- Settles O2: a call takes the branch that loads `OP` and the ports. -/
theorem stepRunsTheCalledOperation : Obligations.StepRunsTheCalledOperation :=
  fun _ _ _ => step_of_call

/-- Settles O3: the call written for an operation decodes to the operation. -/
theorem encodedCallRunsItsOperation : Obligations.EncodedCallRunsItsOperation := by
  intro s i rest h
  have hstep := stepRunsTheCalledOperation s (encode i) rest h
  rwa [decode_encode] at hstep

/-- Settles O4: decoding compares `OP` with the codes of the table, row by row. -/
theorem opCodesSelectTheFourOperations : Obligations.OpCodesSelectTheFourOperations :=
  ⟨fun _ => ⟨rfl, rfl, rfl, rfl⟩, rfl, rfl, rfl, rfl⟩

/-- Settles O5: the codes are given constructor by constructor. -/
theorem statusAndTagCodes : Obligations.StatusAndTagCodes :=
  ⟨rfl, rfl, rfl, rfl, rfl, rfl, rfl, rfl⟩

/-- Settles O6: the reset event empties result and `OUT`; only an abandoned call has written `OP` and the ports before. -/
theorem resetEventDeliversNothing : Obligations.ResetEventDeliversNothing := by
  intro s inFlight rest h
  refine ⟨_, step_of_reset h, ?_⟩
  cases inFlight with
  | none => exact ⟨rfl, Memory.read_fresh 0, rfl, rfl, rfl, fun _ => ⟨rfl, rfl⟩, nofun⟩
  | some r =>
    refine ⟨rfl, Memory.read_fresh 0, rfl, rfl, rfl, nofun, fun q hq => ?_⟩
    cases hq
    exact ⟨rfl, rfl⟩

/-- Settles O12: every operation with a capacity checks it before anything else; CRC_UPDATE has none to exceed. -/
theorem operandsOverCapacityAreRefused : Obligations.OperandsOverCapacityAreRefused := by
  intro i s hw
  cases i with
  | crcUpdate st b => cases hw
  | encode idxs cmd dat => exact execEncode_of_not_wf hw
  | decode F => exact execDecode_of_not_wf (Bool.eq_false_iff.1 hw)
  | scan B => exact execScan_of_not_wf (Bool.eq_false_iff.1 hw)

/-- Settles O13: the reset configuration is legal, and a fresh buffer and the reset registers are within all bounds. -/
theorem resetMeetsTheInvariant : Obligations.ResetMeetsTheInvariant :=
  ⟨rfl, Memory.fresh_wf 0, Nat.zero_le _, regsBounded_reset _, trivial⟩

end Sys2Proof.Machine
end
